-- ==== Sys2Proof/Word.lean ====
section
/-! DEFINITION. The widths of rule R8 and the two bit-vector types every other file uses: the 32-bit word of a memory
cell, a register slot and an instruction, and the 20-bit value an instruction computes, stores or uses as an address. -/

namespace Sys2Proof

/-- `WORD_BITS` of rule R8: a memory word, a register slot and an instruction are 32 bits wide. -/
abbrev Word := BitVec 32

/-- `VAL_BITS` and `ADDR_BITS` of rule R8: every computed value, register content and address is 20 bits wide. -/
abbrev Val := BitVec 20

/-- `MEM_WORDS` of rule R8 and rule R50: memory has 2^20 words, indices 0 .. 2^20 - 1. -/
abbrev memWords : Nat := 2 ^ 20

/-- `NREGS` of rule R8 and rule R20: the register file has 17 slots, indices 0 .. 16. -/
abbrev numSlots : Nat := 17

/-- A register an instruction field can name (`NREGS_ADDR` of rule R8): slots 0 .. 15, by a 4-bit field. -/
abbrev Reg := Fin 16

/-- A slot of the whole register file, as the host numbers them (rule R20): 0 .. 16, slot 16 being the holding register. -/
abbrev Slot := Fin 17

end Sys2Proof
end

