-- ==== Sys2Proof/Config.lean ====
section
/-! DEFINITION. The named parameters of spec/93_implementation_defined.md: each point the spec decides itself and lists
with the treatment `parameter`, as one field of `Params`. The shared operations take a `Params` as an argument; the
values the spec's own rules give (its defaults) are `Machine.specParams`. The opcode numbering (parameter `OPCODE_OF`,
entry I5) is an argument of the decoder and the encoder instead, with its default in Sys2Proof/Decode.lean. -/

namespace Sys2Proof.Config

/-- Entry I6 (decision D3): what fetch does when `pc` is 2^20 - 1. -/
inductive PcTop where
  /-- `pc` becomes 0 (the spec's default, rule R101). -/
  | wrap
  /-- The alternative the source names: a fatal addressing fault. -/
  | fault
  deriving DecidableEq, Repr

/-- Entry I7 (decision D5): what `step` does while Halted. -/
inductive HaltedStep where
  /-- No state change, and the status `halted` (the spec's default, rule R109). -/
  | noop
  /-- The alternative: an error report with no state change. -/
  | report
  deriving DecidableEq, Repr

/-- Entry I8 (decision D4): what `reset` does to memory. -/
inductive ResetMemory where
  /-- Memory is left as it is (the spec's default, rule R243). -/
  | keep
  /-- The alternative: every word becomes 0. -/
  | clear
  deriving DecidableEq, Repr

/-- Entry I11 (decision D12): the carry of LSL by more than 20. -/
inductive LslCarryPast where
  /-- C is 0 (the spec's default, rule R161). -/
  | zero
  /-- The alternative: C is bit 0 of the shifted value. -/
  | bitZero
  deriving DecidableEq, Repr

/-- Entry I12 (decision D13): the result of ASR by 20 or more. -/
inductive AsrPast where
  /-- Twenty copies of the sign bit (the spec's default, rule R163). -/
  | signCopies
  /-- The alternative: 0. -/
  | zero
  deriving DecidableEq, Repr

/-- Entries I14 and I15 (decisions D15 and D23): V after a rotate, or a shift, by 0. -/
inductive ZeroAmountV where
  /-- V keeps its value. -/
  | unchanged
  /-- V becomes 0: the sign comparison of a value with itself. -/
  | zero
  deriving DecidableEq, Repr

/-- Entry I16 (decision D10): Z and N after SUB, SBC and CMP. -/
inductive SubZN where
  /-- From the truncated result (the spec's default, rule R141). -/
  | fromResult
  /-- The alternative: both keep their values. -/
  | unchanged
  deriving DecidableEq, Repr

/-- The parameters of spec/93_implementation_defined.md, one field an entry. -/
structure Params where
  /-- I6. -/
  pcTop : PcTop
  /-- I7. -/
  haltedStep : HaltedStep
  /-- I8. -/
  resetMemory : ResetMemory
  /-- I10, `V_NEG_WRAP_ZERO`: V of an addition of two negative values whose truncated sum is 0. -/
  negWrapZeroV : Bool
  /-- I11. -/
  lslCarryPast : LslCarryPast
  /-- I12. -/
  asrPast : AsrPast
  /-- I13, ROL: the bit of the rotated result that becomes C. -/
  rolCarryBit : Fin 20
  /-- I13, ROR: the bit of the rotated result that becomes C. -/
  rorCarryBit : Fin 20
  /-- I14. -/
  rotateZeroV : ZeroAmountV
  /-- I15. -/
  shiftZeroV : ZeroAmountV
  /-- I16. -/
  subZN : SubZN
  deriving DecidableEq, Repr

end Sys2Proof.Config
end

