-- ==== Sys2Proof/Machine/Params.lean ====
section
/-! DEFINITION. The values the spec's own rules give the parameters of spec/93_implementation_defined.md. -/

namespace Sys2Proof.Machine

open Sys2Proof.Config

/-- The defaults of spec/93_implementation_defined.md, each the decision of spec/92_eei_decisions.md it names:
I6 D3, I7 D5, I8 D4, I10 conflict C1, I11 D12, I12 D13, I13 D14, I14 D15, I15 D23, I16 D10. -/
def specParams : Params where
  pcTop := .wrap
  haltedStep := .noop
  resetMemory := .keep
  negWrapZeroV := true
  lslCarryPast := .zero
  asrPast := .signCopies
  rolCarryBit := 0
  rorCarryBit := 19
  rotateZeroV := .unchanged
  shiftZeroV := .zero
  subZN := .fromResult

end Sys2Proof.Machine
end

