-- ==== Sys2Proof/Machine/State.lean ====
section
/-! DEFINITION. The machine's state as plain data (rule R38, with the phase marker of rule R39 and the block's outputs of
rule R40), the reasons a step can stop, and the state right after reset (rules R42 and R240). -/

namespace Sys2Proof.Machine

/-- The condition register (rule R28). -/
structure Flags where
  /-- Carry / borrow. -/
  c : Bool
  /-- Zero. -/
  z : Bool
  /-- Negative. -/
  n : Bool
  /-- Signed overflow. -/
  v : Bool
  deriving DecidableEq, Repr

/-- One listed word of memory: its word index and its 32 bits (rule R50: the addressable unit is the word). -/
abbrev MemCell := Nat × Word

/-- Memory (rules R34 and R50): the listed words, addresses strictly rising; every other word reads as `Memory.background`. -/
structure Memory where
  /-- The listed words. -/
  cells : List MemCell
  deriving DecidableEq, Repr

/-- The sub-phase marker of rule R39. -/
inductive Phase where
  | idle
  | fetched
  | decoded
  deriving DecidableEq, Repr

/-- The three error kinds of rule R211, each with the raw values it carries. -/
inductive ErrorKind where
  /-- Code 1. Unreachable (rule R213): no step reports it. -/
  | invalidAddressingMode (mode : BitVec 2)
  /-- Code 2: an assigned opcode in a mode outside its permitted set (rule R215). -/
  | unsupportedAddressingMode (op : BitVec 5) (mode : BitVec 2)
  /-- Code 3: an unassigned opcode value (rule R214). -/
  | invalidOpcode (op : BitVec 5)
  deriving DecidableEq, Repr

/-- The error record of rule R211. -/
structure ErrorRecord where
  /-- The kind and its raw values. -/
  kind : ErrorKind
  /-- The fetched word. -/
  word : Word
  /-- The address it was fetched from. -/
  addr : Val
  deriving DecidableEq, Repr

/-- What the last command returned (rules R40, R100, R109, R211). -/
inductive Status where
  /-- The instruction completed; error code 0. -/
  | ok
  /-- A step while Halted: neither `ok` nor an error (rule R109). -/
  | halted
  /-- The step ended in an error (rule R210). -/
  | error (e : ErrorRecord)
  deriving DecidableEq, Repr

/-- Why a step stops with no next state. Both belong to parameter values the spec does NOT choose
(spec/93_implementation_defined.md, entries I6 and I7); at `specParams` no step faults. Both are safe. -/
inductive Fault where
  /-- Raised by fetch at address 2^20 - 1 under the policy `PcTop.fault`, the alternative the source names (I6). Safe. -/
  | pcPastTop
  /-- Raised by step while Halted under the policy `HaltedStep.report`: an error report with no state change (I7). Safe. -/
  | stepWhileHalted
  deriving DecidableEq, Repr

/-- Why a command has no meaning. All are safe: the model stops where the spec gives no effect. -/
inductive Refusal where
  /-- An instruction without a meaning; no arm of `exec` answers it. Safe. -/
  | notModelled (mnemonic : String)
  /-- Raised by the sub-phases, and by step, when the phase marker is not the one the command needs (rule R110). Safe. -/
  | commandOutOfOrder
  /-- Raised by the sub-phases while Halted (rule R110). Safe. -/
  | subPhaseWhileHalted
  /-- Raised by a host write to slot 16, which the host cannot write (rule R41). Safe. -/
  | hostWriteToHoldingRegister
  /-- Raised by a host write between the sub-phases of one step: the host acts only between steps (rule R41). Safe. -/
  | hostAccessInsideStep
  deriving DecidableEq, Repr

/-- The whole machine (rules R38, R39, R40). -/
structure State where
  /-- The 17 slots of rule R20: r0 .. r14, the program counter (slot 15) and the holding register (slot 16). -/
  regs : Vector Word 17
  /-- The condition register (rule R28). -/
  ccr : Flags
  /-- The Running / Halted bit (rule R33). -/
  running : Bool
  /-- Memory (rule R34). -/
  mem : Memory
  /-- The sub-phase marker (rule R39). -/
  phase : Phase
  /-- What the last command returned (rule R40, log 1). -/
  status : Status
  deriving DecidableEq, Repr

/-- What a command answers. -/
abbrev StepOutcome := Host.Outcome State Fault Refusal

/-- The machine right after `reset` with no word of memory listed (rules R42, R240, R241). -/
def State.reset : State where
  regs := Vector.replicate 17 0#32
  ccr := ⟨false, false, false, false⟩
  running := true
  mem := ⟨[]⟩
  phase := .idle
  status := .ok

/-- The machine at power-on (rules R42 and R242): Halted, with the unspecified registers and flags, and the host's
image, as arguments. -/
def State.powerOn (regs : Vector Word 17) (ccr : Flags) (mem : Memory) : State where
  regs := regs
  ccr := ccr
  running := false
  mem := mem
  phase := .idle
  status := .ok

end Sys2Proof.Machine
end

