-- ==== Sys2Proof/Machine/Values.lean ====
section
/-! DEFINITION. The primitives on 20-bit values of rules R12, R13 and R114. -/

namespace Sys2Proof.Machine

/-- `trunc20` of rule R13: the integer modulo 2^20. -/
def trunc20 (v : Int) : Val := BitVec.ofInt 20 v

/-- `sign` of rule R12: bit 19. -/
def sign (v : Val) : Bool := v.getLsbD 19

/-- `signed` of rule R12: the two's-complement reading of a 20-bit value. -/
def signedVal (v : Val) : Int := if sign v then (v.toNat : Int) - 2 ^ 20 else v.toNat

/-- `zext_32` of rule R13: a value as a 32-bit word with bits 31:20 zero. -/
def zext32 (v : Val) : Word := v.setWidth 32

/-- Bits 19:0 of a word: what a register read and a load keep (rules R22, R56). -/
def low20 (w : Word) : Val := w.setWidth 20

/-- One bit of a value, by a number counted from the least significant bit (rule R11); false past bit 19. -/
def bitOf (v : Val) (i : Nat) : Bool := v.getLsbD i

end Sys2Proof.Machine
end

