-- ==== Sys2Proof/Machine/Ops.lean ====
section
/-! DEFINITION. The named operations over registers, memory, flags and the outputs; raising an error, the one shared
operation of rules R107 and R210; and fetch (rule R101). -/

namespace Sys2Proof.Machine

open Sys2Proof.Config

/-- The slot of a register an instruction names (rule R21). -/
def slotOf (r : Reg) : Slot := ⟨r.val, by omega⟩

/-- `PC_INDEX` of rule R8. -/
def pcReg : Reg := 15

/-- `IR_INDEX` of rule R8. -/
def irSlot : Slot := 16

/-- A slot's 32 bits, as the host inspects them (rule R40). -/
def State.slot (s : State) (i : Slot) : Word := s.regs[i.val]

/-- Replace a slot's 32 bits; only fetch and the operations below use it. -/
def State.setSlot (s : State) (i : Slot) (w : Word) : State := { s with regs := s.regs.set i.val w }

/-- `x[i]` of rule R23: the 20-bit content of a register. -/
def State.readReg (s : State) (r : Reg) : Val := low20 (s.slot (slotOf r))

/-- `wr` of rule R114: a register write stores the 20-bit value, bits 31:20 zero (rule R22). -/
def State.writeReg (s : State) (r : Reg) (v : Val) : State := s.setSlot (slotOf r) (zext32 v)

/-- The program counter (rule R26). -/
def State.pc (s : State) : Val := s.readReg pcReg

/-- `pc <- v` of rule R14. -/
def State.setPc (s : State) (v : Val) : State := s.writeReg pcReg v

/-- The holding register (rule R24). -/
def State.ir (s : State) : Word := s.slot irSlot

/-- Fetch's write of the holding register: all 32 bits (rule R24). -/
def State.setIr (s : State) (w : Word) : State := s.setSlot irSlot w

/-- Replace the condition register. -/
def State.setFlags (s : State) (f : Flags) : State := { s with ccr := f }

/-- What an unlisted word reads as. DESIGN CHOICE (unsafe, log 3): the spec gives memory no content of its own (rule R65);
every image the host can load is some `Memory`, since any set of words can be listed. -/
def Memory.background : Word := 0#32

/-- The word listed at an index, else the background. -/
def lookupCell : List MemCell → Nat → Word
  | [], _ => Memory.background
  | (a, w) :: rest, b => if a = b then w else lookupCell rest b

/-- Store a word at an index and keep the canonical form: rising addresses, no background word listed. -/
def storeCell : List MemCell → Nat → Word → List MemCell
  | [], a, w => if w = Memory.background then [] else [(a, w)]
  | (b, x) :: rest, a, w =>
    if a < b then (if w = Memory.background then (b, x) :: rest else (a, w) :: (b, x) :: rest)
    else if a = b then (if w = Memory.background then rest else (a, w) :: rest)
    else (b, x) :: storeCell rest a w

/-- `MemRead(a, 1)` of rule R15. -/
def Memory.read (m : Memory) (a : Val) : Word := lookupCell m.cells a.toNat

/-- `MemWrite(a, 1, w)` of rule R15. -/
def Memory.write (m : Memory) (a : Val) (w : Word) : Memory := ⟨storeCell m.cells a.toNat w⟩

/-- Addresses rise strictly from `lo`, stay below 2^20 (rule R50), and no listed word is the background. -/
def cellsFrom : Nat → List MemCell → Bool
  | _, [] => true
  | lo, (a, w) :: rest => decide (lo ≤ a) && decide (a < memWords) && decide (w ≠ Memory.background) && cellsFrom (a + 1) rest

/-- The canonical form of memory. -/
def Memory.wf (m : Memory) : Bool := cellsFrom 0 m.cells

/-- `MemRead(a, 1)` in the state's memory. -/
def State.readMem (s : State) (a : Val) : Word := s.mem.read a

/-- `MemWrite(a, 1, w)` in the state's memory. -/
def State.writeMem (s : State) (a : Val) (w : Word) : State := { s with mem := s.mem.write a w }

/-- Put a command's result on the output (rule R40). -/
def State.report (s : State) (r : Status) : State := { s with status := r }

/-- HLT's effect (rule R202): the running bit becomes Halted. -/
def State.halt (s : State) : State := { s with running := false }

/-- The end of an instruction that completed: the step returns `ok` (rule R100). -/
def finish (s : State) : StepOutcome := .next (s.report .ok)

/-- Rule R211's record of an error: the kind, the fetched word, and `trunc20(pc - 1)`. -/
def errorRecord (k : ErrorKind) (s : State) : ErrorRecord where
  kind := k
  word := s.ir
  addr := trunc20 ((s.pc.toNat : Int) - 1)

/-- TAKING AN ERROR (rules R107, R210, R219), in the state after fetch: nothing of the core changes, control goes to no
handler, nothing is saved, the core stays Running, and the record goes to the error output. There is no return from an
error to model: the host's next `step` simply fetches at `pc` (rule R220). -/
def raise (k : ErrorKind) (s : State) : StepOutcome := .next (s.report (.error (errorRecord k s)))

/-- Rule R101: the word at `pc` goes to the holding register, then `pc` advances modulo 2^20 (decision D3). -/
def fetch (s : State) : State :=
  (s.setIr (s.readMem s.pc)).setPc (trunc20 ((s.pc.toNat : Int) + 1))

/-- The fatal addressing fault of entry I6: only under the policy the spec does not choose. -/
def fetchFault (p : Params) (s : State) : Option Fault :=
  match p.pcTop with
  | .wrap => none
  | .fault => if s.pc.toNat + 1 = memWords then some .pcPastTop else none

end Sys2Proof.Machine
end

