-- ==== Sys2Proof/Machine/Flags.lean ====
section
/-! DEFINITION. The arithmetic and logic unit: every result with every flag the spec computes from it, over the
parameters of spec/93_implementation_defined.md. -/

namespace Sys2Proof.Machine

open Sys2Proof.Config

/-- A 20-bit result and the condition register after it. -/
structure AluResult where
  /-- The result, already truncated. -/
  res : Val
  /-- The flags after the instruction. -/
  flags : Flags
  deriving DecidableEq, Repr

/-- `Z` of `setZN` (rule R114). -/
def zeroFlag (r : Val) : Bool := decide (r = 0#20)

/-- The addition family, rule R140: `r = a + b + cin` on unbounded integers. The parameter of entry I10 concerns only two
negative operands whose truncated sum is 0. -/
def addResult (p : Params) (a b : Val) (cin : Bool) : AluResult :=
  let r : Int := (a.toNat : Int) + b.toNat + cin.toNat
  let res := trunc20 r
  let overflow := decide (sign a = sign b) && decide (sign res ≠ sign a)
  let contested := sign a && sign b && zeroFlag res
  { res := res
    flags :=
      { c := decide (2 ^ 20 ≤ r)
        z := zeroFlag res
        n := sign res
        v := if contested then p.negWrapZeroV else overflow } }

/-- The subtraction family, rule R141: `r = a - b - bin` on unbounded integers; C is the borrow. -/
def subResult (p : Params) (old : Flags) (a b : Val) (bin : Bool) : AluResult :=
  let r : Int := (a.toNat : Int) - b.toNat - bin.toNat
  let res := trunc20 r
  { res := res
    flags :=
      { c := decide (r < 0)
        z := match p.subZN with | .fromResult => zeroFlag res | .unchanged => old.z
        n := match p.subZN with | .fromResult => sign res | .unchanged => old.n
        v := decide (sign a ≠ sign b) && decide (sign res ≠ sign a) } }

/-- The flags of a shift (rules R160 to R164): by 0, C stays and V is the parameter of entry I15; otherwise C is the bit
shifted out and V compares the signs. -/
def shiftFlags (p : Params) (old : Flags) (a res : Val) (amount : Nat) (carry : Bool) : Flags where
  c := if amount = 0 then old.c else carry
  z := zeroFlag res
  n := sign res
  v := if amount = 0 then (match p.shiftZeroV with | .zero => false | .unchanged => old.v)
    else decide (sign a ≠ sign res)

/-- LSL, rule R161. The amount is unsigned (decision D11). -/
def lslResult (p : Params) (old : Flags) (a b : Val) : AluResult :=
  let n := b.toNat
  let res := if n = 0 then a else if n < 20 then trunc20 (a.toNat <<< n : Nat) else 0#20
  let carry :=
    if n < 20 then bitOf a (20 - n)
    else if n = 20 then bitOf a 0
    else match p.lslCarryPast with | .zero => false | .bitZero => bitOf a 0
  { res := res, flags := shiftFlags p old a res n carry }

/-- LSR, rule R162. -/
def lsrResult (p : Params) (old : Flags) (a b : Val) : AluResult :=
  let n := b.toNat
  let res := if n = 0 then a else if n ≤ 20 then trunc20 (a.toNat >>> n : Nat) else 0#20
  let carry := if n ≤ 20 then bitOf a (n - 1) else false
  { res := res, flags := shiftFlags p old a res n carry }

/-- Twenty copies of a value's sign bit (rule R163). -/
def signCopies (a : Val) : Val := if sign a then 0xFFFFF#20 else 0#20

/-- ASR, rule R163: `signed(a) >> b` is the floor shift. -/
def asrResult (p : Params) (old : Flags) (a b : Val) : AluResult :=
  let n := b.toNat
  let res :=
    if n = 0 then a
    else if n < 20 then trunc20 (signedVal a >>> n)
    else match p.asrPast with | .signCopies => signCopies a | .zero => 0#20
  let carry := if n ≤ 20 then bitOf a (n - 1) else sign a
  { res := res, flags := shiftFlags p old a res n carry }

/-- Rule R165: a non-zero rotate amount normalised to 1 .. 20. -/
def rotateAmount (oldB : Nat) : Nat := (oldB - 1) % 20 + 1

/-- ROL's rotation by `k` in 1 .. 20 (rule R166). -/
def rotateLeft (a : Val) (k : Nat) : Val := trunc20 ((a.toNat <<< k) ||| (a.toNat >>> (20 - k)) : Nat)

/-- ROR's rotation by `k` in 1 .. 20 (rule R167). -/
def rotateRight (a : Val) (k : Nat) : Val := trunc20 ((a.toNat >>> k) ||| (a.toNat <<< (20 - k)) : Nat)

/-- The flags of a rotate by a non-zero amount (rules R165 to R167). -/
def rotateFlags (a res : Val) (carry : Bool) : Flags where
  c := carry
  z := zeroFlag res
  n := sign res
  v := decide (sign a ≠ sign res)

/-- The flags of a rotate by 0 (rule R168): Z and N from the value, C unchanged, V the parameter of entry I14. -/
def rotateZeroFlags (p : Params) (old : Flags) (a : Val) : Flags where
  c := old.c
  z := zeroFlag a
  n := sign a
  v := match p.rotateZeroV with | .unchanged => old.v | .zero => false

/-- ROL by a non-zero amount, rule R166; the carry bit is the parameter of entry I13. -/
def rolResult (p : Params) (a b : Val) : AluResult :=
  let res := rotateLeft a (rotateAmount b.toNat)
  { res := res, flags := rotateFlags a res (bitOf res p.rolCarryBit.val) }

/-- ROR by a non-zero amount, rule R167; the carry bit is the parameter of entry I13. -/
def rorResult (p : Params) (a b : Val) : AluResult :=
  let res := rotateRight a (rotateAmount b.toNat)
  { res := res, flags := rotateFlags a res (bitOf res p.rorCarryBit.val) }

/-- The logic family, rule R180: Z and N from the result, C and V unmodified. -/
def logicResult (old : Flags) (res : Val) : AluResult where
  res := res
  flags := { c := old.c, z := zeroFlag res, n := sign res, v := old.v }

/-- Write an ALU result to register A with its flags, both from the state before (rule R106), and end the step. -/
def commitAlu (ra : Reg) (r : AluResult) (s : State) : StepOutcome :=
  finish ((s.setFlags r.flags).writeReg ra r.res)

end Sys2Proof.Machine
end

