-- ==== Sys2Proof/Syntax.lean ====
section
/-! DEFINITION. The instructions as syntax: the addressing modes (rule R74), the operands a mode reads, the decoded
record of rule R71, the 27 mnemonics of rule R72, and `Instr`, one constructor per row of spec/opcode_table.json. -/

namespace Sys2Proof

/-- The four addressing modes of rule R74, in the order of their codes 00, 01, 10, 11. -/
inductive Mode where
  /-- Code 00: the literal as data; "implicit" for HLT and NOT, which ignore it. -/
  | immediate
  /-- Code 01: a register's content as data. -/
  | register
  /-- Code 10: the literal as a memory address. -/
  | direct
  /-- Code 11: a register's content as a memory address. -/
  | indirect
  deriving DecidableEq, Repr

/-- What an instruction's mode, rb and imm20 fields name (rules R74, R85). -/
inductive Operand where
  /-- Mode 00: the 20-bit literal as data. -/
  | immediate (v : Val)
  /-- Mode 01: `x[rb]` as data. -/
  | register (rb : Reg)
  /-- Mode 10: the 20-bit literal as a word address. -/
  | direct (addr : Val)
  /-- Mode 11: `x[rb]` as a word address. -/
  | indirect (rb : Reg)
  deriving DecidableEq, Repr

/-- The mode an operand stands in. -/
def Operand.mode : Operand → Mode
  | .immediate _ => .immediate
  | .register _ => .register
  | .direct _ => .direct
  | .indirect _ => .indirect

/-- The record the decoder makes of a word (rules R35 and R71): raw fields, none of them judged. -/
structure DecodedRecord where
  /-- Bits 31:27. -/
  op : BitVec 5
  /-- Bits 26:25. -/
  mode : BitVec 2
  /-- Bits 23:20. -/
  ra : BitVec 4
  /-- Bits 19:16. -/
  rb : BitVec 4
  /-- Bits 19:0. -/
  imm20 : BitVec 20
  deriving DecidableEq, Repr

/-- The 27 operations (rules R19 and R72), in the order of the opcode table. -/
inductive Mnemonic where
  | hlt | mov | ldr | str
  | add | adc | sub | sbc | cmp
  | lsl | lsr | asr | rol | ror
  | and | orr | eor | not
  | jmp | bcc | bcs | bpl | bmi | bne | beq | bvc | bvs
  deriving DecidableEq, Repr

/-- Every mnemonic once, in the order of the opcode table. -/
def Mnemonic.all : List Mnemonic :=
  [.hlt, .mov, .ldr, .str, .add, .adc, .sub, .sbc, .cmp, .lsl, .lsr, .asr, .rol, .ror,
    .and, .orr, .eor, .not, .jmp, .bcc, .bcs, .bpl, .bmi, .bne, .beq, .bvc, .bvs]

/-- One constructor per row of spec/opcode_table.json. A constructor keeps exactly the fields its instruction uses
(rule R77); the mode is always kept, since a mode outside the opcode's permitted set decodes and then raises
UnsupportedAddressingMode (rules R71, R84, R215). HLT and NOT ignore every operand bit, so they keep the mode alone. -/
inductive Instr where
  /-- HLT, rule R202. -/
  | hlt (m : Mode)
  /-- MOV, rule R130. -/
  | mov (ra : Reg) (o : Operand)
  /-- LDR, rule R131. -/
  | ldr (ra : Reg) (o : Operand)
  /-- STR, rule R132. -/
  | str (ra : Reg) (o : Operand)
  /-- ADD, rule R142. -/
  | add (ra : Reg) (o : Operand)
  /-- ADC, rule R143. -/
  | adc (ra : Reg) (o : Operand)
  /-- SUB, rule R146. -/
  | sub (ra : Reg) (o : Operand)
  /-- SBC, rule R147. -/
  | sbc (ra : Reg) (o : Operand)
  /-- CMP, rule R148. -/
  | cmp (ra : Reg) (o : Operand)
  /-- LSL, rule R161. -/
  | lsl (ra : Reg) (o : Operand)
  /-- LSR, rule R162. -/
  | lsr (ra : Reg) (o : Operand)
  /-- ASR, rule R163. -/
  | asr (ra : Reg) (o : Operand)
  /-- ROL, rule R166. -/
  | rol (ra : Reg) (o : Operand)
  /-- ROR, rule R167. -/
  | ror (ra : Reg) (o : Operand)
  /-- AND, rule R181. -/
  | and (ra : Reg) (o : Operand)
  /-- ORR, rule R182. -/
  | orr (ra : Reg) (o : Operand)
  /-- EOR, rule R183. -/
  | eor (ra : Reg) (o : Operand)
  /-- NOT, rule R184. -/
  | not (ra : Reg) (m : Mode)
  /-- JMP, rule R200. -/
  | jmp (o : Operand)
  /-- BCC, rule R192. -/
  | bcc (o : Operand)
  /-- BCS, rule R193. -/
  | bcs (o : Operand)
  /-- BPL, rule R194. -/
  | bpl (o : Operand)
  /-- BMI, rule R195. -/
  | bmi (o : Operand)
  /-- BNE, rule R196. -/
  | bne (o : Operand)
  /-- BEQ, rule R197. -/
  | beq (o : Operand)
  /-- BVC, rule R198. -/
  | bvc (o : Operand)
  /-- BVS, rule R199. -/
  | bvs (o : Operand)
  deriving DecidableEq, Repr

/-- The operation an instruction performs. -/
def Instr.mnemonic : Instr → Mnemonic
  | .hlt _ => .hlt | .mov _ _ => .mov | .ldr _ _ => .ldr | .str _ _ => .str
  | .add _ _ => .add | .adc _ _ => .adc | .sub _ _ => .sub | .sbc _ _ => .sbc | .cmp _ _ => .cmp
  | .lsl _ _ => .lsl | .lsr _ _ => .lsr | .asr _ _ => .asr | .rol _ _ => .rol | .ror _ _ => .ror
  | .and _ _ => .and | .orr _ _ => .orr | .eor _ _ => .eor | .not _ _ => .not
  | .jmp _ => .jmp | .bcc _ => .bcc | .bcs _ => .bcs | .bpl _ => .bpl | .bmi _ => .bmi
  | .bne _ => .bne | .beq _ => .beq | .bvc _ => .bvc | .bvs _ => .bvs

/-- The addressing mode an instruction is written in. -/
def Instr.mode : Instr → Mode
  | .hlt m => m
  | .not _ m => m
  | .mov _ o | .ldr _ o | .str _ o | .add _ o | .adc _ o | .sub _ o | .sbc _ o | .cmp _ o
  | .lsl _ o | .lsr _ o | .asr _ o | .rol _ o | .ror _ o | .and _ o | .orr _ o | .eor _ o => o.mode
  | .jmp o | .bcc o | .bcs o | .bpl o | .bmi o | .bne o | .beq o | .bvc o | .bvs o => o.mode

end Sys2Proof
end

