-- ==== Sys2Proof/WellFormed.lean ====
section
/-! DEFINITION. Which instructions execute (rule R89): the three groups of rule R75, written over the syntax. The
machine's own mode check reads the mode-code sets of rule R75 (`Machine.permits`); a lemma for every constructor says the
two agree (Sys2Proof/Laws/PerInstr.lean). -/

namespace Sys2Proof

/-- The implicit group's condition (rule R75): mode 00 and no other. -/
def Mode.isImplicit : Mode → Bool
  | .immediate => true
  | .register | .direct | .indirect => false

/-- The value group's condition (rule R75): an immediate or a register. -/
def Operand.isValue : Operand → Bool
  | .immediate _ | .register _ => true
  | .direct _ | .indirect _ => false

/-- The address group's condition (rule R75): a direct or a register-indirect address. -/
def Operand.isAddress : Operand → Bool
  | .direct _ | .indirect _ => true
  | .immediate _ | .register _ => false

/-- An instruction is well formed when its mode is one its opcode permits (rules R75 and R89). -/
def Instr.wellFormed : Instr → Bool
  | .hlt m => m.isImplicit
  | .not _ m => m.isImplicit
  | .mov _ o | .add _ o | .adc _ o | .sub _ o | .sbc _ o | .cmp _ o
  | .lsl _ o | .lsr _ o | .asr _ o | .rol _ o | .ror _ o | .and _ o | .orr _ o | .eor _ o => o.isValue
  | .ldr _ o | .str _ o => o.isAddress
  | .jmp o | .bcc o | .bcs o | .bpl o | .bmi o | .bne o | .beq o | .bvc o | .bvs o => o.isAddress

end Sys2Proof
end

