-- ==== Sys2Proof/Decode.lean ====
section
/-! DEFINITION. The decoder (rules R70 to R73) and, after it, the encoder (rule R91), both over a numbering of the 27
mnemonics (parameter `OPCODE_OF` of rule R9) and both at the spec's default numbering `opcodeOf` (decision D1). -/

namespace Sys2Proof

/-- A numbering of the mnemonics: the parameter `OPCODE_OF` of rule R9. -/
abbrev Numbering := Mnemonic → BitVec 5

/-- The default numbering of decision D1, as rule R72's table and spec/opcode_table.json give it. -/
def opcodeOf : Numbering
  | .hlt => 0b00000#5
  | .mov => 0b00001#5
  | .ldr => 0b00010#5
  | .str => 0b00011#5
  | .add => 0b00100#5
  | .adc => 0b00101#5
  | .sub => 0b00110#5
  | .sbc => 0b00111#5
  | .cmp => 0b01000#5
  | .lsl => 0b01001#5
  | .lsr => 0b01010#5
  | .asr => 0b01011#5
  | .rol => 0b01100#5
  | .ror => 0b01101#5
  | .and => 0b01110#5
  | .orr => 0b01111#5
  | .eor => 0b10000#5
  | .not => 0b10001#5
  | .jmp => 0b10010#5
  | .bcc => 0b10011#5
  | .bcs => 0b10100#5
  | .bpl => 0b10101#5
  | .bmi => 0b10110#5
  | .bne => 0b10111#5
  | .beq => 0b11000#5
  | .bvc => 0b11001#5
  | .bvs => 0b11010#5

/-- What rule R9 asks of a numbering: injective, MOV at 1, nothing at 31. -/
abbrev Numbering.admissible (num : Numbering) : Prop :=
  Function.Injective num ∧ num .mov = 0b00001#5 ∧ ∀ m, num m ≠ 0b11111#5

/-- Why a word does not name an instruction, by name: its `op` is no mnemonic's number (rules R73 and R214). -/
inductive DecodeError where
  /-- The `op` field holds this unassigned value. -/
  | unassignedOpcode (op : BitVec 5)
  deriving DecidableEq, Repr

/-- The mode a 2-bit code names (rule R74): every code names one, so InvalidAddressingMode has no word (rule R213). -/
def modeOfCode (c : BitVec 2) : Mode :=
  if c = 0b00#2 then .immediate
  else if c = 0b01#2 then .register
  else if c = 0b10#2 then .direct
  else .indirect

/-- The 2-bit code of a mode (rule R74). -/
def codeOfMode : Mode → BitVec 2
  | .immediate => 0b00#2
  | .register => 0b01#2
  | .direct => 0b10#2
  | .indirect => 0b11#2

/-- The register a 4-bit field names. -/
def regOfField (f : BitVec 4) : Reg := ⟨f.toNat, f.isLt⟩

/-- The 4-bit field that names a register. -/
def fieldOfReg (r : Reg) : BitVec 4 := BitVec.ofNat 4 r.val

/-- Rule R71: the pure, total decoder. Bit 24 is read by no one (rule R76). -/
def decodeRecord (w : Word) : DecodedRecord where
  op := w.extractLsb' 27 5
  mode := w.extractLsb' 25 2
  ra := w.extractLsb' 20 4
  rb := w.extractLsb' 16 4
  imm20 := w.extractLsb' 0 20

/-- The operand a record's mode, rb and imm20 fields name (rules R74 and R77). -/
def operandOf (d : DecodedRecord) : Operand :=
  match modeOfCode d.mode with
  | .immediate => .immediate d.imm20
  | .register => .register (regOfField d.rb)
  | .direct => .direct d.imm20
  | .indirect => .indirect (regOfField d.rb)

/-- The mnemonic a raw opcode value selects, if any (rules R72 and R73). -/
def mnemonicOf (num : Numbering) (op : BitVec 5) : Option Mnemonic :=
  Mnemonic.all.find? fun m => num m == op

/-- The instruction of a mnemonic with the fields a record gives it, less those rule R77 says it ignores. -/
def instrOf (m : Mnemonic) (d : DecodedRecord) : Instr :=
  match m with
  | .hlt => .hlt (modeOfCode d.mode)
  | .mov => .mov (regOfField d.ra) (operandOf d)
  | .ldr => .ldr (regOfField d.ra) (operandOf d)
  | .str => .str (regOfField d.ra) (operandOf d)
  | .add => .add (regOfField d.ra) (operandOf d)
  | .adc => .adc (regOfField d.ra) (operandOf d)
  | .sub => .sub (regOfField d.ra) (operandOf d)
  | .sbc => .sbc (regOfField d.ra) (operandOf d)
  | .cmp => .cmp (regOfField d.ra) (operandOf d)
  | .lsl => .lsl (regOfField d.ra) (operandOf d)
  | .lsr => .lsr (regOfField d.ra) (operandOf d)
  | .asr => .asr (regOfField d.ra) (operandOf d)
  | .rol => .rol (regOfField d.ra) (operandOf d)
  | .ror => .ror (regOfField d.ra) (operandOf d)
  | .and => .and (regOfField d.ra) (operandOf d)
  | .orr => .orr (regOfField d.ra) (operandOf d)
  | .eor => .eor (regOfField d.ra) (operandOf d)
  | .not => .not (regOfField d.ra) (modeOfCode d.mode)
  | .jmp => .jmp (operandOf d)
  | .bcc => .bcc (operandOf d)
  | .bcs => .bcs (operandOf d)
  | .bpl => .bpl (operandOf d)
  | .bmi => .bmi (operandOf d)
  | .bne => .bne (operandOf d)
  | .beq => .beq (operandOf d)
  | .bvc => .bvc (operandOf d)
  | .bvs => .bvs (operandOf d)

/-- The opcode check of rule R103 on a decoded record, under a numbering. -/
def instrOfRecord (num : Numbering) (d : DecodedRecord) : Except DecodeError Instr :=
  match mnemonicOf num d.op with
  | some m => .ok (instrOf m d)
  | none => .error (.unassignedOpcode d.op)

/-- Word to instruction under a numbering: rule R71 and then the opcode check of rule R103. -/
def decodeWith (num : Numbering) (w : Word) : Except DecodeError Instr :=
  instrOfRecord num (decodeRecord w)

/-- Word to instruction under the default numbering of decision D1. -/
def decode (w : Word) : Except DecodeError Instr := decodeWith opcodeOf w

/-- The instruction the decoder reads from an opcode-table word: every instruction is one 32-bit word (rule R90). -/
def decodeTableWord (nbits w : Nat) : Option Instr :=
  (decode (BitVec.ofNat 32 (w % 2 ^ nbits))).toOption

/-- The low 20 bits rule R91 writes for an operand: the literal in modes 00 and 10, `rb << 16` in modes 01 and 11. -/
def operandBits : Operand → BitVec 20
  | .immediate v => v
  | .register rb => fieldOfReg rb ++ 0#16
  | .direct addr => addr
  | .indirect rb => fieldOfReg rb ++ 0#16

/-- The five fields of rule R70 put side by side, bit 24 written 0 (rule R91). -/
def packWord (op : BitVec 5) (mode : BitVec 2) (ra : BitVec 4) (low : BitVec 20) : Word :=
  op ++ mode ++ 0#1 ++ ra ++ low

/-- The ra field an instruction is written with: 0 where rule R77 says it is ignored. -/
def raBits : Instr → BitVec 4
  | .hlt _ => 0#4
  | .not ra _ => fieldOfReg ra
  | .mov ra _ | .ldr ra _ | .str ra _ | .add ra _ | .adc ra _ | .sub ra _ | .sbc ra _ | .cmp ra _
  | .lsl ra _ | .lsr ra _ | .asr ra _ | .rol ra _ | .ror ra _ | .and ra _ | .orr ra _ | .eor ra _ => fieldOfReg ra
  | .jmp _ | .bcc _ | .bcs _ | .bpl _ | .bmi _ | .bne _ | .beq _ | .bvc _ | .bvs _ => 0#4

/-- The low 20 bits an instruction is written with: 0 where rule R77 says they are ignored. -/
def lowBits : Instr → BitVec 20
  | .hlt _ => 0#20
  | .not _ _ => 0#20
  | .mov _ o | .ldr _ o | .str _ o | .add _ o | .adc _ o | .sub _ o | .sbc _ o | .cmp _ o
  | .lsl _ o | .lsr _ o | .asr _ o | .rol _ o | .ror _ o | .and _ o | .orr _ o | .eor _ o => operandBits o
  | .jmp o | .bcc o | .bcs o | .bpl o | .bmi o | .bne o | .beq o | .bvc o | .bvs o => operandBits o

/-- Rule R91: the word of an instruction under a numbering. -/
def encodeWith (num : Numbering) (i : Instr) : Word :=
  packWord (num i.mnemonic) (codeOfMode i.mode) (raBits i) (lowBits i)

/-- Rule R91: the word of an instruction under the default numbering of decision D1. -/
def encode (i : Instr) : Word := encodeWith opcodeOf i

/-- The bits of a word an operand is read from (rule R77): all of imm20 in modes 00 and 10, rb alone in modes 01 and 11. -/
def operandMask : Operand → BitVec 20
  | .immediate _ | .direct _ => BitVec.allOnes 20
  | .register _ | .indirect _ => 0xF0000#20

/-- The bits of its word an instruction uses (rules R76 and R77): all others may hold anything. -/
def usedBits : Instr → Word
  | .hlt _ => packWord (BitVec.allOnes 5) (BitVec.allOnes 2) 0#4 0#20
  | .not _ _ => packWord (BitVec.allOnes 5) (BitVec.allOnes 2) (BitVec.allOnes 4) 0#20
  | .mov _ o | .ldr _ o | .str _ o | .add _ o | .adc _ o | .sub _ o | .sbc _ o | .cmp _ o
  | .lsl _ o | .lsr _ o | .asr _ o | .rol _ o | .ror _ o | .and _ o | .orr _ o | .eor _ o =>
    packWord (BitVec.allOnes 5) (BitVec.allOnes 2) (BitVec.allOnes 4) (operandMask o)
  | .jmp o | .bcc o | .bcs o | .bpl o | .bmi o | .bne o | .beq o | .bvc o | .bvs o =>
    packWord (BitVec.allOnes 5) (BitVec.allOnes 2) 0#4 (operandMask o)

end Sys2Proof
end

