-- ==== Sys2Proof/Machine/Operands.lean ====
section
/-! DEFINITION. The addressing resolver: the permitted modes of rule R75, the mode check of rule R84, and the operand of
rule R85. -/

namespace Sys2Proof.Machine

/-- The mode codes an opcode permits (rule R75): {00} for HLT and NOT, {00, 01} for the value group, {10, 11} for the
address group. -/
def permittedCodes : Mnemonic → List (BitVec 2)
  | .hlt | .not => [0b00#2]
  | .mov | .add | .adc | .sub | .sbc | .lsl | .lsr | .rol | .ror | .and | .orr | .eor | .cmp | .asr => [0b00#2, 0b01#2]
  | .ldr | .str | .jmp | .bcc | .bcs | .bpl | .bmi | .bne | .beq | .bvc | .bvs => [0b10#2, 0b11#2]

/-- `mode ∈ permitted(op)` of rule R84. -/
def permits (m : Mnemonic) (md : Mode) : Bool := (permittedCodes m).contains (codeOfMode md)

/-- The operand's value (rule R85): the literal, or the 20-bit content of `rb`. It reads no memory and writes nothing. -/
def operandValue (s : State) : Operand → Val
  | .immediate v => v
  | .register rb => s.readReg rb
  | .direct addr => addr
  | .indirect rb => s.readReg rb

/-- The error of rule R215: `op` and `mode` are the raw fields of the decoded record, which is a function of the holding
register (rule R35). So the record names the fetched `op` under whatever numbering decoded it (rule R9). -/
def unsupportedMode (s : State) : ErrorKind :=
  .unsupportedAddressingMode (decodeRecord s.ir).op (decodeRecord s.ir).mode

/-- The mode check of rules R84 and R215, then the instruction. -/
def withMode (m : Mnemonic) (md : Mode) (s : State) (run : StepOutcome) : StepOutcome :=
  if permits m md then run else raise (unsupportedMode s) s

/-- The resolver of rules R84 and R85, then the instruction on the operand. -/
def withOperand (m : Mnemonic) (o : Operand) (s : State) (run : Val → StepOutcome) : StepOutcome :=
  withMode m o.mode s (run (operandValue s o))

end Sys2Proof.Machine
end

