-- ==== Sys2Proof/Machine/Arithmetic.lean ====
section
/-! DEFINITION. Arithmetic (spec/42_arithmetic.md): ADD, ADC, SUB, SBC, CMP. -/

namespace Sys2Proof.Machine

/-- ADD, rule R142. -/
def execAdd (ra : Reg) (o : Operand) (s : State) : StepOutcome :=
  withOperand .add o s fun b => commitAlu ra (addResult specParams (s.readReg ra) b false) s

/-- ADC, rule R143: the carry-in is C. -/
def execAdc (ra : Reg) (o : Operand) (s : State) : StepOutcome :=
  withOperand .adc o s fun b => commitAlu ra (addResult specParams (s.readReg ra) b s.ccr.c) s

/-- SUB, rule R146. -/
def execSub (ra : Reg) (o : Operand) (s : State) : StepOutcome :=
  withOperand .sub o s fun b => commitAlu ra (subResult specParams s.ccr (s.readReg ra) b false) s

/-- SBC, rule R147: the borrow-in is `1 - C` (rule R149 keeps the convention as written). -/
def execSbc (ra : Reg) (o : Operand) (s : State) : StepOutcome :=
  withOperand .sbc o s fun b => commitAlu ra (subResult specParams s.ccr (s.readReg ra) b (!s.ccr.c)) s

/-- CMP, rule R148: SUB's flags and no register write. -/
def execCmp (ra : Reg) (o : Operand) (s : State) : StepOutcome :=
  withOperand .cmp o s fun b => finish (s.setFlags (subResult specParams s.ccr (s.readReg ra) b false).flags)

end Sys2Proof.Machine
end

