-- ==== Sys2Proof/Machine/ControlFlow.lean ====
section
/-! DEFINITION. Control flow and halt (spec/45_control_flow.md): the eight branches, JMP and HLT. -/

namespace Sys2Proof.Machine

/-- Rule R190: `pc` becomes the resolved operand if the branch is taken; otherwise fetch's increment stands. -/
def branchIf (m : Mnemonic) (taken : Bool) (o : Operand) (s : State) : StepOutcome :=
  withOperand m o s fun b => finish (if taken then s.setPc b else s)

/-- JMP, rule R200. -/
def execJmp (o : Operand) (s : State) : StepOutcome := withOperand .jmp o s fun b => finish (s.setPc b)

/-- BCC, rule R192: taken if C = 0. -/
def execBcc (o : Operand) (s : State) : StepOutcome := branchIf .bcc (!s.ccr.c) o s

/-- BCS, rule R193: taken if C = 1. -/
def execBcs (o : Operand) (s : State) : StepOutcome := branchIf .bcs s.ccr.c o s

/-- BPL, rule R194: taken if N = 0. -/
def execBpl (o : Operand) (s : State) : StepOutcome := branchIf .bpl (!s.ccr.n) o s

/-- BMI, rule R195: taken if N = 1. -/
def execBmi (o : Operand) (s : State) : StepOutcome := branchIf .bmi s.ccr.n o s

/-- BNE, rule R196: taken if Z = 0. -/
def execBne (o : Operand) (s : State) : StepOutcome := branchIf .bne (!s.ccr.z) o s

/-- BEQ, rule R197: taken if Z = 1. -/
def execBeq (o : Operand) (s : State) : StepOutcome := branchIf .beq s.ccr.z o s

/-- BVC, rule R198: taken if V = 0. -/
def execBvc (o : Operand) (s : State) : StepOutcome := branchIf .bvc (!s.ccr.v) o s

/-- BVS, rule R199: taken if V = 1. -/
def execBvs (o : Operand) (s : State) : StepOutcome := branchIf .bvs s.ccr.v o s

/-- HLT, rule R202: the mode must be implicit; then Running becomes Halted and nothing else changes. -/
def execHlt (m : Mode) (s : State) : StepOutcome := withMode .hlt m s (finish s.halt)

end Sys2Proof.Machine
end

