-- ==== Sys2Proof/Machine/DataMovement.lean ====
section
/-! DEFINITION. Data movement (spec/41_data_movement.md): MOV, LDR, STR. None of them writes a flag (rule R29). -/

namespace Sys2Proof.Machine

/-- MOV, rule R130: `wr(ra, b)`. -/
def execMov (ra : Reg) (o : Operand) (s : State) : StepOutcome :=
  withOperand .mov o s fun b => finish (s.writeReg ra b)

/-- LDR, rule R131: `wr(ra, MemRead(b, 1))`, keeping bits 19:0 of the word. -/
def execLdr (ra : Reg) (o : Operand) (s : State) : StepOutcome :=
  withOperand .ldr o s fun b => finish (s.writeReg ra (low20 (s.readMem b)))

/-- STR, rule R132: `MemWrite(b, 1, zext_32(a))`. -/
def execStr (ra : Reg) (o : Operand) (s : State) : StepOutcome :=
  withOperand .str o s fun b => finish (s.writeMem b (zext32 (s.readReg ra)))

end Sys2Proof.Machine
end

