-- ==== Sys2Proof/Machine/Logic.lean ====
section
/-! DEFINITION. Logic (spec/44_logic.md): AND, ORR, EOR, NOT. -/

namespace Sys2Proof.Machine

/-- AND, rule R181. -/
def execAnd (ra : Reg) (o : Operand) (s : State) : StepOutcome :=
  withOperand .and o s fun b => commitAlu ra (logicResult s.ccr (s.readReg ra &&& b)) s

/-- ORR, rule R182. -/
def execOrr (ra : Reg) (o : Operand) (s : State) : StepOutcome :=
  withOperand .orr o s fun b => commitAlu ra (logicResult s.ccr (s.readReg ra ||| b)) s

/-- EOR, rule R183. -/
def execEor (ra : Reg) (o : Operand) (s : State) : StepOutcome :=
  withOperand .eor o s fun b => commitAlu ra (logicResult s.ccr (s.readReg ra ^^^ b)) s

/-- NOT, rule R184: `a XOR 0xFFFFF`, mode 00 only, no operand. -/
def execNot (ra : Reg) (m : Mode) (s : State) : StepOutcome :=
  withMode .not m s (commitAlu ra (logicResult s.ccr (s.readReg ra ^^^ 0xFFFFF#20)) s)

end Sys2Proof.Machine
end

