-- ==== Sys2Proof/Machine/ShiftRotate.lean ====
section
/-! DEFINITION. Shifts and rotates (spec/43_shift_rotate.md): LSL, LSR, ASR, ROL, ROR. -/

namespace Sys2Proof.Machine

/-- LSL, rule R161. -/
def execLsl (ra : Reg) (o : Operand) (s : State) : StepOutcome :=
  withOperand .lsl o s fun b => commitAlu ra (lslResult specParams s.ccr (s.readReg ra) b) s

/-- LSR, rule R162. -/
def execLsr (ra : Reg) (o : Operand) (s : State) : StepOutcome :=
  withOperand .lsr o s fun b => commitAlu ra (lsrResult specParams s.ccr (s.readReg ra) b) s

/-- ASR, rule R163. -/
def execAsr (ra : Reg) (o : Operand) (s : State) : StepOutcome :=
  withOperand .asr o s fun b => commitAlu ra (asrResult specParams s.ccr (s.readReg ra) b) s

/-- ROL, rule R166; by 0 it writes no register (rule R168). -/
def execRol (ra : Reg) (o : Operand) (s : State) : StepOutcome :=
  withOperand .rol o s fun b =>
    if b = 0#20 then finish (s.setFlags (rotateZeroFlags specParams s.ccr (s.readReg ra)))
    else commitAlu ra (rolResult specParams (s.readReg ra) b) s

/-- ROR, rule R167; by 0 it writes no register (rule R168). -/
def execRor (ra : Reg) (o : Operand) (s : State) : StepOutcome :=
  withOperand .ror o s fun b =>
    if b = 0#20 then finish (s.setFlags (rotateZeroFlags specParams s.ccr (s.readReg ra)))
    else commitAlu ra (rorResult specParams (s.readReg ra) b) s

end Sys2Proof.Machine
end

