-- ==== Sys2Proof/Machine/Dispatch.lean ====
section
/-! DEFINITION. Execute (rule R105): one arm per instruction, each a direct call of its meaning. -/

namespace Sys2Proof.Machine

/-- The execute phase of a decoded instruction, in the state fetch leaves. -/
def exec (i : Instr) (s : State) : Host.Outcome State Fault Refusal :=
  match i with
  | .hlt m => Sys2Proof.Machine.execHlt m s
  | .mov ra o => Sys2Proof.Machine.execMov ra o s
  | .ldr ra o => Sys2Proof.Machine.execLdr ra o s
  | .str ra o => Sys2Proof.Machine.execStr ra o s
  | .add ra o => Sys2Proof.Machine.execAdd ra o s
  | .adc ra o => Sys2Proof.Machine.execAdc ra o s
  | .sub ra o => Sys2Proof.Machine.execSub ra o s
  | .sbc ra o => Sys2Proof.Machine.execSbc ra o s
  | .cmp ra o => Sys2Proof.Machine.execCmp ra o s
  | .lsl ra o => Sys2Proof.Machine.execLsl ra o s
  | .lsr ra o => Sys2Proof.Machine.execLsr ra o s
  | .asr ra o => Sys2Proof.Machine.execAsr ra o s
  | .rol ra o => Sys2Proof.Machine.execRol ra o s
  | .ror ra o => Sys2Proof.Machine.execRor ra o s
  | .and ra o => Sys2Proof.Machine.execAnd ra o s
  | .orr ra o => Sys2Proof.Machine.execOrr ra o s
  | .eor ra o => Sys2Proof.Machine.execEor ra o s
  | .not ra m => Sys2Proof.Machine.execNot ra m s
  | .jmp o => Sys2Proof.Machine.execJmp o s
  | .bcc o => Sys2Proof.Machine.execBcc o s
  | .bcs o => Sys2Proof.Machine.execBcs o s
  | .bpl o => Sys2Proof.Machine.execBpl o s
  | .bmi o => Sys2Proof.Machine.execBmi o s
  | .bne o => Sys2Proof.Machine.execBne o s
  | .beq o => Sys2Proof.Machine.execBeq o s
  | .bvc o => Sys2Proof.Machine.execBvc o s
  | .bvs o => Sys2Proof.Machine.execBvs o s

end Sys2Proof.Machine
end

