-- ==== Sys2Proof/Machine/Cycle.lean ====
section
/-! DEFINITION. The parts of one step (spec/40_execution_cycle.md): the run of a fetched word, and what the step does
before fetch. -/

namespace Sys2Proof.Machine

open Sys2Proof.Config

/-- Decode, the opcode check and execute (rules R102, R103, R105), in the state after fetch, under a numbering (parameter
`OPCODE_OF` of rule R9): an opcode it does not assign raises InvalidOpcode whatever its mode (rules R103, R214). -/
def runFetchedWith (num : Numbering) (s : State) : StepOutcome :=
  match decodeWith num s.ir with
  | .ok i => exec i s
  | .error (.unassignedOpcode op) => raise (.invalidOpcode op) s

/-- The run of a fetched word under the default numbering of decision D1 (log 6). -/
def runFetched (s : State) : StepOutcome := runFetchedWith opcodeOf s

/-- `step` while Halted: rule R109, or the report of entry I7. -/
def haltedStep (p : Params) (s : State) : StepOutcome :=
  match p.haltedStep with
  | .noop => .next (s.report .halted)
  | .report => .fault .stepWhileHalted

/-- Rule R100 over a numbering (rule R9) and the parameters: the Halted check, the order of the sub-phases (rule R110, log 8), fetch, and the
fetched word. -/
def stepWith (num : Numbering) (p : Params) (s : State) : StepOutcome :=
  if s.running then
    if s.phase = .idle then
      match fetchFault p s with
      | some f => .fault f
      | none => runFetchedWith num (fetch s)
    else .refused .commandOutOfOrder
  else haltedStep p s

/-- A word placed where the next step fetches it, the core made ready to fetch: Running and between two steps. -/
def placeFetchWord (s : State) (w : Word) : State :=
  { s.writeMem s.pc w with running := true, phase := .idle }

end Sys2Proof.Machine
end

