-- ==== Sys2Proof/Machine/Step.lean ====
section
/-! DEFINITION. The `step` command (rule R100) and the place its next instruction is fetched from. -/

namespace Sys2Proof.Machine

/-- One `step` command (rule R100) at the spec's own parameter values and its default numbering (decision D1, log 6). -/
def step (s : State) : Host.Outcome State Fault Refusal := stepWith opcodeOf specParams s

/-- The instruction word `w` (its low `nbits` bits) stored at `pc`, where the next step fetches (rule R101). It stands for
the host's load of rule R244 (log 9); on a state that is Halted or inside a step it also readies the core. -/
def State.withFetchWord (s : State) (nbits w : Nat) : State := placeFetchWord s (BitVec.ofNat 32 (w % 2 ^ nbits))

end Sys2Proof.Machine
end

