-- ==== Sys2Proof/Machine/HostPort.lean ====
section
/-! DEFINITION. The block's other commands and outputs (rule R40): `reset`, the sub-phases, `finished`, the host's access
to memory and registers, and the flag and error outputs. -/

namespace Sys2Proof.Machine

open Sys2Proof.Config

/-- `reset` in any state (rules R108 and R240): every register and flag 0, Running, phase idle, and memory by the policy
of entry I8. -/
def resetWith (p : Params) (s : State) : State :=
  { State.reset with mem := match p.resetMemory with | .keep => s.mem | .clear => ⟨[]⟩ }

/-- The `reset` command (rule R240): memory is kept (rule R243). -/
def hostReset (s : State) : State := resetWith specParams s

/-- The output `finished()` (rules R33, R40): true iff Halted. -/
def finished (s : State) : Bool := !s.running

/-- What every sub-phase checks first (rule R110): Running, and the marker the command needs. -/
def inPhase {α : Type} (ph : Phase) (s : State) (run : Host.Outcome α Fault Refusal) : Host.Outcome α Fault Refusal :=
  if s.running then (if s.phase = ph then run else .refused .commandOutOfOrder) else .refused .subPhaseWhileHalted

/-- Move the phase marker (rule R39). -/
def State.setPhase (s : State) (ph : Phase) : State := { s with phase := ph }

/-- The sub-phase `fetch()` (rules R101, R110): idle to fetched. -/
def hostFetch (s : State) : StepOutcome :=
  inPhase .idle s (match fetchFault specParams s with
    | some f => .fault f
    | none => .next ((fetch s).setPhase .fetched))

/-- The sub-phase `decode()` (rules R102, R110): fetched to decoded, with the record for the host. -/
def hostDecode (s : State) : Host.Outcome (State × DecodedRecord) Fault Refusal :=
  inPhase .fetched s (.next (s.setPhase .decoded, decodeRecord s.ir))

/-- The sub-phase `execute()` (rules R103 to R105, R110) under a numbering (rule R9): decoded to idle. -/
def hostExecuteWith (num : Numbering) (s : State) : StepOutcome :=
  inPhase .decoded s (runFetchedWith num (s.setPhase .idle))

/-- The sub-phase `execute()` under the default numbering of decision D1 (log 6). -/
def hostExecute (s : State) : StepOutcome := hostExecuteWith opcodeOf s

/-- The host reads any word of memory (rule R40). -/
def hostReadMem (s : State) (a : Val) : Word := s.readMem a

/-- The host writes a 32-bit word of memory, between steps only (rules R40, R41). -/
def hostWriteMem (s : State) (a : Val) (w : Word) : StepOutcome :=
  if s.phase = .idle then .next (s.writeMem a w) else .refused .hostAccessInsideStep

/-- The loader's words in rising order from an address (rule R244), each index reduced to 20 bits (rule R51). -/
def loadWords (s : State) : Val → List Word → State
  | _, [] => s
  | a, w :: rest => loadWords (s.writeMem a w) (trunc20 ((a.toNat : Int) + 1)) rest

/-- The loading contract of rule R244, between steps only. -/
def hostLoad (s : State) (a : Val) (ws : List Word) : StepOutcome :=
  if s.phase = .idle then .next (loadWords s a ws) else .refused .hostAccessInsideStep

/-- The host inspects any slot (rule R40). -/
def hostReadSlot (s : State) (i : Slot) : Word := s.slot i

/-- The host writes a slot (rule R41): slots 0 .. 15 keep the low 20 bits, slot 16 cannot be written. -/
def hostWriteSlot (s : State) (i : Slot) (w : Word) : StepOutcome :=
  if i = irSlot then .refused .hostWriteToHoldingRegister
  else if s.phase = .idle then .next (s.setSlot i (zext32 (low20 w)))
  else .refused .hostAccessInsideStep

/-- The flags output (rule R31): bit 0 C, bit 1 Z, bit 2 N, bit 3 V. -/
def ccrPort (s : State) : BitVec 4 :=
  BitVec.ofBool s.ccr.v ++ BitVec.ofBool s.ccr.n ++ BitVec.ofBool s.ccr.z ++ BitVec.ofBool s.ccr.c

/-- The kind code of the error output (rule R211): 0 for `ok`; `halted` is a status of its own and no error. -/
def errorCode : Status → Option Nat
  | .ok => some 0
  | .halted => none
  | .error e =>
    match e.kind with
    | .invalidAddressingMode _ => some 1
    | .unsupportedAddressingMode _ _ => some 2
    | .invalidOpcode _ => some 3

/-- The error output of the last step (rules R40, R211). -/
def errorPort (s : State) : Option ErrorRecord :=
  match s.status with
  | .error e => some e
  | .ok | .halted => none

end Sys2Proof.Machine
end

