-- ==== Sys2Proof/Safety.lean ====
section
/-! DEFINITION. The terms the statements use: the invariant of the machine's state, what a successful run is, the frames
(what a command leaves unchanged), and each family's effect written in the rules' own arithmetic, with no use of the
machine's result and flag computations. -/

namespace Sys2Proof.Machine

/-- Rules R22 and R26: bits 31:20 of slots 0 .. 15 are zero. -/
abbrev State.slotsMasked (s : State) : Prop := ∀ r : Reg, (s.slot (slotOf r)).toNat < 2 ^ 20

/-- Rule R213: no command reports InvalidAddressingMode. -/
def Status.legal : Status → Bool
  | .ok | .halted => true
  | .error e =>
    match e.kind with
    | .invalidAddressingMode _ => false
    | .unsupportedAddressingMode _ _ | .invalidOpcode _ => true

/-- The invariant every command keeps: masked registers (rule R22), memory in canonical form, a legal status (rule R213),
and no step in progress while Halted (rule R110). -/
abbrev Inv (s : State) : Prop :=
  s.slotsMasked ∧ s.mem.wf = true ∧ s.status.legal = true ∧ (s.running = false → s.phase = .idle)

/-- Does a status report an error? -/
def Status.isError : Status → Bool
  | .ok | .halted => false
  | .error _ => true

/-- A successful end (rule R113, entry I17): within `k` steps the core halts, and no step of the run met an error. -/
def endsWell : Nat → State → Bool
  | 0, s => !s.running
  | k + 1, s =>
    if s.running then
      match step s with
      | .next t => !t.status.isError && endsWell k t
      | .fault _ | .refused _ => false
    else true

/-! Frames. -/

/-- Every slot but those listed holds what it held. -/
def keepsSlotsBut (ws : List Slot) (s t : State) : Prop := ∀ j, j ∉ ws → t.slot j = s.slot j

/-- Every word of memory reads as it read. -/
def keepsMemory (s t : State) : Prop := ∀ a, t.readMem a = s.readMem a

/-- The running bit and the phase marker are unchanged. -/
def keepsControl (s t : State) : Prop := t.running = s.running ∧ t.phase = s.phase

/-- An instruction completed with `ok`, and wrote no slot but those listed, no memory and no control state. -/
structure CompletesBut (ws : List Slot) (s t : State) : Prop where
  status : t.status = .ok
  slots : keepsSlotsBut ws s t
  memory : keepsMemory s t
  control : keepsControl s t

/-- An error of this kind was taken in the state after fetch (rules R107, R211): only the error output changed. -/
def TakesError (k : ErrorKind) (s t : State) : Prop :=
  t = s.report (.error ⟨k, s.ir, trunc20 ((s.pc.toNat : Int) - 1)⟩)

/-- Fetch's two writes and no other: the holding register takes the word at the old `pc`, `pc` advances modulo 2^20 (rules
R101, R107). Only the status is not spoken of. -/
structure FetchOnly (s t : State) : Prop where
  ir : t.ir = s.readMem s.pc
  pc : t.pc.toNat = (s.pc.toNat + 1) % 2 ^ 20
  slots : keepsSlotsBut [slotOf pcReg, irSlot] s t
  flags : t.ccr = s.ccr
  memory : t.mem = s.mem
  control : keepsControl s t

/-- Register A holds a 20-bit result with bits 31:20 zero (rules R22, R114). -/
def holds (t : State) (ra : Reg) (res : Val) : Prop := t.readReg ra = res ∧ (t.slot (slotOf ra)).toNat < 2 ^ 20

/-- `setZN` of rule R114. -/
def ZNOf (f : Flags) (res : Val) : Prop := (f.z = true ↔ res.toNat = 0) ∧ f.n = res.getLsbD 19

/-- Rule R140: the result and flags of `a + b + cin`. -/
structure AdditionEffect (a b : Val) (cin : Nat) (res : Val) (f : Flags) : Prop where
  result : res.toNat = (a.toNat + b.toNat + cin) % 2 ^ 20
  carry : f.c = true ↔ 2 ^ 20 ≤ a.toNat + b.toNat + cin
  zeroNegative : ZNOf f res
  overflow : f.v = true ↔ a.getLsbD 19 = b.getLsbD 19 ∧ res.getLsbD 19 ≠ a.getLsbD 19

/-- Rule R141: the result and flags of `a - b - bin`. -/
structure SubtractionEffect (a b : Val) (bin : Nat) (res : Val) (f : Flags) : Prop where
  result : (res.toNat : Int) = ((a.toNat : Int) - b.toNat - bin) % 2 ^ 20
  borrow : f.c = true ↔ a.toNat < b.toNat + bin
  zeroNegative : ZNOf f res
  overflow : f.v = true ↔ a.getLsbD 19 ≠ b.getLsbD 19 ∧ res.getLsbD 19 ≠ a.getLsbD 19

/-- Rules R160 and R164: the flags of a shift by `n` whose last bit shifted out is `out`. -/
structure ShiftFlags (old : Flags) (a res : Val) (n : Nat) (out : Bool) (f : Flags) : Prop where
  carryKept : n = 0 → f.c = old.c
  carryOut : n ≠ 0 → f.c = out
  zeroNegative : ZNOf f res
  overflow : f.v = true ↔ a.getLsbD 19 ≠ res.getLsbD 19

/-- Rules R165 and R168: the flags of a rotate by `n` whose carry bit is `out`; by 0, C and V keep their values. -/
structure RotateFlags (old : Flags) (a res : Val) (n : Nat) (out : Bool) (f : Flags) : Prop where
  kept : n = 0 → f.c = old.c ∧ f.v = old.v
  carryOut : n ≠ 0 → f.c = out
  overflow : n ≠ 0 → (f.v = true ↔ a.getLsbD 19 ≠ res.getLsbD 19)
  zeroNegative : ZNOf f res

/-! The tables of rules R25 and R29. -/

/-- The slots an instruction may write (rule R25): register A for the instructions that have a destination, the program
counter for JMP and the branches, none for the others. Slot 16 is in no row. -/
def slotsWritten : Instr → List Slot
  | .mov ra _ | .ldr ra _ | .add ra _ | .adc ra _ | .sub ra _ | .sbc ra _ | .lsl ra _ | .lsr ra _ | .asr ra _
  | .rol ra _ | .ror ra _ | .and ra _ | .orr ra _ | .eor ra _ => [slotOf ra]
  | .not ra _ => [slotOf ra]
  | .jmp _ | .bcc _ | .bcs _ | .bpl _ | .bmi _ | .bne _ | .beq _ | .bvc _ | .bvs _ => [slotOf pcReg]
  | .cmp _ _ | .str _ _ => []
  | .hlt _ => []

/-- The rows of rule R29's flag table, by the flags a row leaves unchanged. -/
inductive FlagRow where
  /-- All four flags are written. -/
  | writesAll
  /-- C is left unchanged: shifts by 0. -/
  | keepsC
  /-- C and V are left unchanged: the logic family, rotates by 0. -/
  | keepsCV
  /-- No flag is written. -/
  | keepsAll
  deriving DecidableEq, Repr

/-- Rule R29's row of an instruction, given its operand's value. -/
def flagRow (i : Instr) (s : State) : FlagRow :=
  match i with
  | .add _ _ | .adc _ _ | .sub _ _ | .sbc _ _ | .cmp _ _ => .writesAll
  | .lsl _ o | .lsr _ o | .asr _ o => if operandValue s o = 0#20 then .keepsC else .writesAll
  | .rol _ o | .ror _ o => if operandValue s o = 0#20 then .keepsCV else .writesAll
  | .and _ _ | .orr _ _ | .eor _ _ => .keepsCV
  | .not _ _ => .keepsCV
  | .mov _ _ | .ldr _ _ | .str _ _ => .keepsAll
  | .jmp _ | .bcc _ | .bcs _ | .bpl _ | .bmi _ | .bne _ | .beq _ | .bvc _ | .bvs _ => .keepsAll
  | .hlt _ => .keepsAll

/-- The flags a row of rule R29 leaves unchanged are unchanged. -/
def FlagRow.respected (row : FlagRow) (old new : Flags) : Prop :=
  match row with
  | .writesAll => True
  | .keepsC => new.c = old.c
  | .keepsCV => new.c = old.c ∧ new.v = old.v
  | .keepsAll => new = old

end Sys2Proof.Machine
end

