-- ==== Sys2Proof/Certificates/Slice0/Obligations.lean ====
section
/-! DEFINITION. The statements about the model, for the provers. The effects, frames and tables they use are in
Sys2Proof/Safety.lean. A docstring names the rule or the spec's sentence a statement formalises; `D<n>` is a decision of
spec/92_eei_decisions.md (the spec's own choice, not the source's), `log <n>` a row of notes/assumptions. -/

open Sys2Proof Sys2Proof.Machine

/-! Encoding and decoding. -/

/-- Rules R70, R71, R91 over the parameter `OPCODE_OF` of rule R9: whatever injective numbering is chosen, decoding the
word of an instruction gives that instruction back, with every operand at every value, in a permitted mode or not. -/
def Obligations.DecodeInvertsEncodeUnderEveryNumbering : Prop :=
  ∀ num : Numbering, Function.Injective num → ∀ i : Instr, decodeWith num (encodeWith num i) = .ok i

/-- Rules R70, R76, R77, R91 under every numbering (rule R9): the word an instruction is written with is the word it was
decoded from, less the bits rule R77 says it ignores. -/
def Obligations.DecodedWordIsEncodedOnItsUsedBits : Prop :=
  ∀ (num : Numbering) (w : Word) (i : Instr), decodeWith num w = .ok i → encodeWith num i = w &&& usedBits i

/-- Rule R76: bit 24 is read by no one. The decoded record and instruction are the same, and the run of the fetched word
gives the same registers 0 .. 15, flags, running bit, memory, phase and kind of result. For a word that raises an error,
that both runs answer a next state is log 1 (DEDUCED, beside rule R113), and the result code and the raw values are those of
rule R211 (decision D16). `decode` and the run are at the default numbering (decision D1, log 6). The address in the error's
record is not compared. -/
def Obligations.ReservedBitChangesNothing : Prop :=
  ∀ (s : State) (w : Word),
    decodeRecord (w ||| 0x01000000#32) = decodeRecord w ∧ decode (w ||| 0x01000000#32) = decode w ∧
    ∃ t u, runFetched (s.setIr w) = .next t ∧ runFetched (s.setIr (w ||| 0x01000000#32)) = .next u ∧
      (∀ r : Reg, u.slot (slotOf r) = t.slot (slotOf r)) ∧ u.ccr = t.ccr ∧ u.running = t.running ∧ u.mem = t.mem ∧
      u.phase = t.phase ∧ errorCode u.status = errorCode t.status ∧
      (errorPort u).map (·.kind) = (errorPort t).map (·.kind)

/-- Words written out in spec/95_test_vectors.md (vectors M-1, M-13, D-3, L-11, T-1, J-10, H-11 and section 6.1, with
S4), decoded by rules R70 to R74 at the default numbering (decision D1, log 6). That op 31 is unassigned is rules R72
and R73. -/
def Obligations.WrittenWordsDecode : Prop :=
  decode 0x08000005#32 = .ok (.mov 0 (.immediate 5#20)) ∧
  decode 0x16320000#32 = .ok (.ldr 3 (.indirect 2)) ∧
  decode 0x1C300200#32 = .ok (.str 3 (.direct 0x00200#20)) ∧
  decode 0x22120000#32 = .ok (.add 1 (.register 2)) ∧
  decode 0x481FFFFF#32 = .ok (.lsl 1 (.immediate 0xFFFFF#20)) ∧
  decode 0x88100000#32 = .ok (.not 1 .immediate) ∧
  decode 0xAE030000#32 = .ok (.bpl (.indirect 3)) ∧
  decode 0x00FFFFFF#32 = .ok (.hlt .immediate) ∧
  decode 0xF8000000#32 = .error (.unassignedOpcode 31#5)

/-! One step. -/

/-- Rules R100, R101, R105: between two steps and Running, a step is fetch, then execute of the decoded instruction, and
fetch writes the holding register and `pc` and nothing else. That `pc` wraps to 0 after 2^20 - 1 is decision D3 (log 7),
and `decode` is at the default numbering (decision D1, log 6). -/
def Obligations.StepRunsTheDecodedInstruction : Prop :=
  ∀ (s : State) (i : Instr), s.running = true → s.phase = .idle → decode (s.readMem s.pc) = .ok i →
    step s = exec i (fetch s) ∧ FetchOnly s (fetch s)

/-- Rules R214 and R103 at the default numbering (decision D1, log 6): a word whose `op` is 27 .. 31 raises
InvalidOpcode whatever its other bits, its mode among them (the opcode check comes first, D9), with its record (rule
R211, D16), and only fetch's writes happen (D8), which wrap `pc` at 2^20 - 1 (D3, log 7). The error is a next state (log
1). Any smaller `op` decodes. -/
def Obligations.UnassignedOpcodeRaisesInvalidOpcode : Prop :=
  ∀ s : State,
    (27 ≤ (s.readMem s.pc).toNat / 2 ^ 27 → s.running = true → s.phase = .idle →
      ∃ t, step s = .next t ∧ FetchOnly s t ∧
        t.status = .error ⟨.invalidOpcode ((s.readMem s.pc).extractLsb' 27 5), s.readMem s.pc, s.pc⟩) ∧
    ((s.readMem s.pc).toNat / 2 ^ 27 < 27 → ∃ i, decode (s.readMem s.pc) = .ok i)

/-- Rules R84, R211, R215 (decisions D8, D9, D16, log 1): every instruction in a mode outside its opcode's permitted set
raises UnsupportedAddressingMode with the raw op and mode of the held word, and changes nothing but the error output.
Under any numbering that decoded the held word as the instruction (rule R9), these are the instruction's own number and
mode. -/
def Obligations.ForbiddenModeRaisesUnsupportedAddressingMode : Prop :=
  ∀ (i : Instr) (s : State), i.wellFormed = false →
    ∃ t, exec i s = .next t ∧
      TakesError (.unsupportedAddressingMode (decodeRecord s.ir).op (decodeRecord s.ir).mode) s t ∧
      ∀ num : Numbering, decodeWith num s.ir = .ok i →
        TakesError (.unsupportedAddressingMode (num i.mnemonic) (codeOfMode i.mode)) s t

/-- Rules R107, R211, R219 (decisions D8, D16): a step that ends in an error, which is a next state (log 1), commits
fetch's two writes alone, of which `pc` wraps at 2^20 - 1 (decision D3, log 7), leaves the core Running, and its record
holds the fetched word, its address, and the raw op (and mode) of that word. The error output shows that record and the
code 3 (InvalidOpcode) or 2 (UnsupportedAddressingMode); after a step that ends in `ok` it shows code 0 and no record,
and after `halted` no record. -/
def Obligations.ErrorStepCommitsFetchAlone : Prop :=
  ∀ s t : State, step s = .next t →
    (∀ e : ErrorRecord, t.status = .error e →
      FetchOnly s t ∧ t.running = true ∧ e.word = s.readMem s.pc ∧ e.addr = s.pc ∧ errorPort t = some e ∧
      (e.kind = .invalidOpcode (decodeRecord e.word).op ∧ errorCode t.status = some 3 ∨
        e.kind = .unsupportedAddressingMode (decodeRecord e.word).op (decodeRecord e.word).mode ∧
          errorCode t.status = some 2)) ∧
    (t.status = .ok → errorPort t = none ∧ errorCode t.status = some 0) ∧
    (t.status = .halted → errorPort t = none)

/-- Rule R213: every 2-bit code names a mode, so no step reports InvalidAddressingMode. -/
def Obligations.NoStepReportsInvalidAddressingMode : Prop :=
  (∀ c : BitVec 2, codeOfMode (modeOfCode c) = c) ∧
  ∀ s t : State, step s = .next t → errorCode t.status ≠ some 1

/-- Rules R109, R242 (decisions D5, log 7, and D7, log 5): a step while Halted only answers the status `halted`; so does
a step at power-on, whatever the registers, flags and memory hold. -/
def Obligations.StepWhileHaltedOnlyReportsHalted : Prop :=
  (∀ s : State, finished s = true → step s = .next (s.report .halted)) ∧
  ∀ (regs : Vector Word 17) (ccr : Flags) (mem : Memory),
    step (State.powerOn regs ccr mem) = .next ((State.powerOn regs ccr mem).report .halted)

/-- Rule R112: a step's answer is a function of memory, the register file, the flags and the running bit. Two states
between steps that agree on these four answer alike, whatever the last command reported. -/
def Obligations.StepIsAFunctionOfTheArchitecturalState : Prop :=
  ∀ s s' : State, s.phase = .idle → s'.phase = .idle →
    s.mem = s'.mem → s.regs = s'.regs → s.ccr = s'.ccr → s.running = s'.running → step s = step s'

/-- Rule R108: a running step halts exactly when its word is HLT in its permitted mode; a halted one stays halted; `reset`
starts the core from any state and re-initialises it; no other command of the host changes the running bit, and the core
is Halted at power-on. -/
def Obligations.OnlyHaltStopsAndOnlyResetStarts : Prop :=
  (∀ s t : State, step s = .next t → s.running = true →
    (t.running = false ↔ decode (s.readMem s.pc) = .ok (.hlt .immediate))) ∧
  (∀ s t : State, step s = .next t → s.running = false → t.running = false) ∧
  (∀ s : State, (hostReset s).running = true ∧ (hostReset s).regs = State.reset.regs ∧ (hostReset s).ccr = State.reset.ccr) ∧
  (∀ (s t : State) (a : Val) (w : Word) (i : Slot) (ws : List Word),
    hostWriteMem s a w = .next t ∨ hostWriteSlot s i w = .next t ∨ hostLoad s a ws = .next t ∨ hostFetch s = .next t →
    t.running = s.running) ∧
  (∀ (s t : State) (d : DecodedRecord), hostDecode s = .next (t, d) → t.running = s.running) ∧
  (∀ s t : State, hostExecute s = .next t → (t.running = false ↔ decode s.ir = .ok (.hlt .immediate))) ∧
  (∀ (regs : Vector Word 17) (ccr : Flags) (mem : Memory), finished (State.powerOn regs ccr mem) = true)

/-- Rule R27: `pc` after a step. It is fetch's increment modulo 2^20 (D3, log 7) when the instruction does not write
`pc` or ended in an error, and the resolved operand after JMP. -/
def Obligations.PcAfterAStep : Prop :=
  ∀ (s t : State) (i : Instr), s.running = true → s.phase = .idle → decode (s.readMem s.pc) = .ok i → step s = .next t →
    (slotOf pcReg ∉ slotsWritten i → t.pc.toNat = (s.pc.toNat + 1) % 2 ^ 20) ∧
    (t.status.isError = true → t.pc.toNat = (s.pc.toNat + 1) % 2 ^ 20) ∧
    (∀ o, i = .jmp o → o.isAddress = true → t.pc = operandValue (fetch s) o)

/-- Rules R23, R87, R253, R255 (decision D3, log 7): an instruction that reads r15 reads its own address plus one modulo
2^20, as register A and as rB in both register modes, whatever the instruction; so MOV copies it, STR stores it, and an
ADD to r15 is a relative jump (rule R142). -/
def Obligations.ReadingR15GivesTheNextAddress : Prop :=
  (∀ s : State, ((fetch s).readReg pcReg).toNat = (s.pc.toNat + 1) % 2 ^ 20 ∧
    (operandValue (fetch s) (.register pcReg)).toNat = (s.pc.toNat + 1) % 2 ^ 20 ∧
    (operandValue (fetch s) (.indirect pcReg)).toNat = (s.pc.toNat + 1) % 2 ^ 20 ∧
    ∀ i, s.running = true → s.phase = .idle → decode (s.readMem s.pc) = .ok i → step s = exec i (fetch s)) ∧
  ∀ s : State, s.running = true → s.phase = .idle → s.mem.wf = true →
    (∀ rd, decode (s.readMem s.pc) = .ok (.mov rd (.register pcReg)) →
      ∃ t, step s = .next t ∧ (t.readReg rd).toNat = (s.pc.toNat + 1) % 2 ^ 20) ∧
    (∀ a, decode (s.readMem s.pc) = .ok (.str pcReg (.direct a)) →
      ∃ t, step s = .next t ∧ (t.readMem a).toNat = (s.pc.toNat + 1) % 2 ^ 20) ∧
    (∀ v : Val, decode (s.readMem s.pc) = .ok (.add pcReg (.immediate v)) →
      ∃ t, step s = .next t ∧ t.pc.toNat = (s.pc.toNat + 1 + v.toNat) % 2 ^ 20)

/-! Runs and the invariant. -/

/-- Rule R216 (with decisions D3 and D5, log 7, and D8): nothing stops the core from outside its three errors. That an
error, which rule R113 says a model treats as a fault, ends in a next state that a run goes on from is the model's
choice (log 1). From every state between two steps, a run of any length goes on, with no fault and no refusal. -/
def Obligations.EveryRunGoesOn : Prop :=
  ∀ (k : Nat) (s : State), s.phase = .idle → ∃ t, Sys2Proof.core.run k s = .next t ∧ t.phase = .idle

/-- Rules R22, R26, R213 and the memory's canonical form (log 2): every step keeps the invariant. -/
def Obligations.EveryStepKeepsTheInvariant : Prop :=
  ∀ s t : State, Inv s → step s = .next t → Inv t

/-- The state after reset meets the invariant. -/
def Obligations.ResetStateMeetsTheInvariant : Prop := Inv State.reset ∧ ∀ s : State, s.mem.wf = true → Inv (hostReset s)

/-- Rules R40, R41, R110: every command of the host that is answered keeps the invariant. -/
def Obligations.HostCommandsKeepTheInvariant : Prop :=
  ∀ s t : State, Inv s →
    (∀ a w, hostWriteMem s a w = .next t → Inv t) ∧ (∀ a ws, hostLoad s a ws = .next t → Inv t) ∧
    (∀ i w, hostWriteSlot s i w = .next t → Inv t) ∧ (hostFetch s = .next t → Inv t) ∧
    (∀ d, hostDecode s = .next (t, d) → Inv t) ∧ (hostExecute s = .next t → Inv t)

/-- Rule R113 and entry I17: a run that ends well halts, and no step of it, nor any after it, answers an error. -/
def Obligations.RunThatEndsWellMeetsNoError : Prop :=
  ∀ (k : Nat) (s : State), endsWell k s = true →
    (∃ t, Sys2Proof.core.run k s = .next t ∧ t.running = false) ∧
    ∀ (j : Nat) (t : State), 1 ≤ j → Sys2Proof.core.run j s = .next t → t.status.isError = false

/-- Rule R203: a JMP or a taken branch to its own address runs for ever, its target a literal or a register. After any
number of steps the core is Running at the same `pc`, with that word in the holding register and all else as it was. -/
def Obligations.SelfJumpNeverHalts : Prop :=
  ∀ (o : Operand) (s : State), s.running = true → s.phase = .idle → o.isAddress = true →
    operandValue (fetch s) o = s.pc →
    ∀ p ∈ ([(.jmp o, true), (.bcc o, !s.ccr.c), (.bcs o, s.ccr.c), (.bpl o, !s.ccr.n), (.bmi o, s.ccr.n),
        (.bne o, !s.ccr.z), (.beq o, s.ccr.z), (.bvc o, !s.ccr.v), (.bvs o, s.ccr.v)] : List (Instr × Bool)),
    decode (s.readMem s.pc) = .ok p.1 → p.2 = true →
    ∀ k : Nat, ∃ t, Sys2Proof.core.run (k + 1) s = .next t ∧ t.running = true ∧ t.pc = s.pc ∧
      t.ir = s.readMem s.pc ∧ t.status = .ok ∧ t.phase = .idle ∧ t.ccr = s.ccr ∧ t.mem = s.mem ∧
      keepsSlotsBut [slotOf pcReg, irSlot] s t

/-! The host's commands. -/

/-- Rule R111: in Running, `fetch`, `decode`, `execute` in order have exactly the effect of one `step`, and `decode` hands
out the record of the fetched word. -/
def Obligations.SubPhasesInOrderAreOneStep : Prop :=
  ∀ s : State, s.running = true → s.phase = .idle →
    ∃ u v, hostFetch s = .next u ∧ hostDecode u = .next (v, decodeRecord (s.readMem s.pc)) ∧ hostExecute v = step s

/-- Rule R110 (decision D22): a sub-phase while Halted, or out of the order idle, fetched, decoded, is refused. That
`step` itself is refused inside a logical step is the model's reading of D22's "any other call" (log 8), and that a host
write is refused there is its reading of rule R41's "never inside one" (log 8). -/
def Obligations.CommandsOutOfOrderAreRefused : Prop :=
  ∀ s : State,
    (s.running = false → hostFetch s = .refused .subPhaseWhileHalted ∧ hostDecode s = .refused .subPhaseWhileHalted ∧
      hostExecute s = .refused .subPhaseWhileHalted) ∧
    (s.phase ≠ .idle → ∀ (a : Val) (w : Word) (ws : List Word) (r : Reg),
      hostWriteMem s a w = .refused .hostAccessInsideStep ∧ hostLoad s a ws = .refused .hostAccessInsideStep ∧
      hostWriteSlot s (slotOf r) w = .refused .hostAccessInsideStep) ∧
    (s.running = true →
      (s.phase ≠ .idle → hostFetch s = .refused .commandOutOfOrder ∧ step s = .refused .commandOutOfOrder) ∧
      (s.phase ≠ .fetched → hostDecode s = .refused .commandOutOfOrder) ∧
      (s.phase ≠ .decoded → hostExecute s = .refused .commandOutOfOrder))

/-- Rules R240, R243 (decisions D4, log 7, and D6): in any state `reset` makes every slot and flag 0, sets Running and
idle, and leaves memory as it is. -/
def Obligations.ResetClearsRegistersAndKeepsMemory : Prop :=
  ∀ s : State, (∀ i : Slot, (hostReset s).slot i = 0#32) ∧ (hostReset s).ccr = ⟨false, false, false, false⟩ ∧
    (hostReset s).running = true ∧ (hostReset s).phase = .idle ∧ (hostReset s).mem = s.mem

/-- Rule R41 (decision D21): between steps, a host write to slot 0 .. 15 stores the low 20 bits and touches no other
slot; a write to slot 16 is refused. -/
def Obligations.HostSlotWriteMasksAndSparesTheHoldingRegister : Prop :=
  ∀ (s : State) (w : Word), hostWriteSlot s irSlot w = .refused .hostWriteToHoldingRegister ∧
    (s.phase = .idle → ∀ r : Reg, ∃ t, hostWriteSlot s (slotOf r) w = .next t ∧
      (t.slot (slotOf r)).toNat = w.toNat % 2 ^ 20 ∧ keepsSlotsBut [slotOf r] s t ∧ t.ccr = s.ccr ∧ t.mem = s.mem ∧
      keepsControl s t)

/-- Rules R40, R41, R244: a word the host writes between steps reads back, all 32 bits; words it loads at consecutive
addresses, wrapping at 2^20, read back as loaded; every other word and all the rest of the state are unchanged. -/
def Obligations.LoadedImageReadsBack : Prop :=
  (∀ (s : State) (a : Val) (w : Word), s.phase = .idle → s.mem.wf = true →
    ∃ t, hostWriteMem s a w = .next t ∧ t.regs = s.regs ∧ t.ccr = s.ccr ∧ keepsControl s t ∧ t.status = s.status ∧
      t.readMem a = w ∧ ∀ b, b ≠ a → t.readMem b = s.readMem b) ∧
  ∀ (s : State) (base : Val) (ws : List Word), s.phase = .idle → s.mem.wf = true → ws.length ≤ 2 ^ 20 →
    ∃ t, hostLoad s base ws = .next t ∧ t.regs = s.regs ∧ t.ccr = s.ccr ∧ keepsControl s t ∧
      t.status = s.status ∧
      (∀ k w, ws[k]? = some w → t.readMem (base + BitVec.ofNat 20 k) = w) ∧
      (∀ a, (∀ k, k < ws.length → a ≠ base + BitVec.ofNat 20 k) → t.readMem a = s.readMem a)

/-- Rule R31 (decision D19): the flags output packs C, Z, N, V into bits 0, 1, 2, 3. -/
def Obligations.FlagOutputPacksCZNV : Prop :=
  ∀ s : State, (ccrPort s).getLsbD 0 = s.ccr.c ∧ (ccrPort s).getLsbD 1 = s.ccr.z ∧ (ccrPort s).getLsbD 2 = s.ccr.n ∧
    (ccrPort s).getLsbD 3 = s.ccr.v

/-! The whole machine: what no instruction changes. -/

/-- Rule R25, with rules R23 and R24: an instruction writes no slot but its row's, never the holding register, and never
the phase marker. -/
def Obligations.OnlyDestinationSlotsAreWritten : Prop :=
  ∀ (i : Instr) (s t : State), exec i s = .next t →
    keepsSlotsBut (slotsWritten i) s t ∧ t.ir = s.ir ∧ t.phase = s.phase

/-- Rule R29 (decisions D15, D23, log 7): the flags outside an instruction's row keep their values, by the operand's
value for the shifts and rotates. -/
def Obligations.FlagsOutsideTheRowAreKept : Prop :=
  ∀ (i : Instr) (s t : State), exec i s = .next t → (flagRow i s).respected s.ccr t.ccr

/-- Rules R56, R105: only STR changes memory, and only the word its operand addresses. -/
def Obligations.OnlyStrChangesMemory : Prop :=
  ∀ (i : Instr) (s t : State), exec i s = .next t →
    ∀ a, (∀ ra o, i = .str ra o → a ≠ operandValue s o) → t.readMem a = s.readMem a

/-- Log 2: memory in canonical form is determined by what its words read as. -/
def Obligations.EqualReadsMakeEqualMemories : Prop :=
  ∀ m m' : Memory, m.wf = true → m'.wf = true → (∀ a, m.read a = m'.read a) → m = m'

/-! Operands and data movement. -/

/-- Rule R85: modes 00 and 10 give the literal, modes 01 and 11 the 20-bit content of `x[rb]`; the resolver reads no
memory, and a permitted instruction gets that value in the unchanged state. -/
def Obligations.ResolverGivesTheModesOperand : Prop :=
  ∀ (d : DecodedRecord) (s : State),
    (d.mode = 0b00#2 ∨ d.mode = 0b10#2 → operandValue s (operandOf d) = d.imm20) ∧
    (d.mode = 0b01#2 ∨ d.mode = 0b11#2 → ∀ r : Reg, r.val = d.rb.toNat →
      operandValue s (operandOf d) = (s.slot (slotOf r)).extractLsb' 0 20) ∧
    (∀ a w, operandValue (s.writeMem a w) (operandOf d) = operandValue s (operandOf d)) ∧
    (∀ m run, permits m (operandOf d).mode = true →
      withOperand m (operandOf d) s run = run (operandValue s (operandOf d)))

/-- Rule R130: MOV writes its operand to register A and nothing else; no flag. -/
def Obligations.MovWritesItsOperand : Prop :=
  ∀ (ra : Reg) (o : Operand) (s : State), o.isValue = true →
    ∃ t, exec (.mov ra o) s = .next t ∧ holds t ra (operandValue s o) ∧ t.ccr = s.ccr ∧ CompletesBut [slotOf ra] s t

/-- Rule R131: LDR writes bits 19:0 of the addressed word to register A and nothing else; no flag. -/
def Obligations.LdrLoadsTheLowTwentyBits : Prop :=
  ∀ (ra : Reg) (o : Operand) (s : State), o.isAddress = true →
    ∃ t, exec (.ldr ra o) s = .next t ∧
      holds t ra (BitVec.ofNat 20 ((s.readMem (operandValue s o)).toNat % 2 ^ 20)) ∧ t.ccr = s.ccr ∧
      CompletesBut [slotOf ra] s t

/-- Rule R132: STR stores register A's 20-bit value, bits 31:20 zero, in the addressed word, and changes nothing else. -/
def Obligations.StrStoresTheZeroExtendedRegister : Prop :=
  ∀ (ra : Reg) (o : Operand) (s : State), o.isAddress = true → s.mem.wf = true →
    ∃ t, exec (.str ra o) s = .next t ∧ (t.readMem (operandValue s o)).toNat = (s.readReg ra).toNat ∧
      (∀ a, a ≠ operandValue s o → t.readMem a = s.readMem a) ∧ t.mem.wf = true ∧ t.regs = s.regs ∧ t.ccr = s.ccr ∧
      keepsControl s t ∧ t.status = .ok

/-- Rules R60, R131, R132: a load of the address just stored to returns the value stored. -/
def Obligations.LoadReturnsTheLastStore : Prop :=
  ∀ (ra rd : Reg) (o o' : Operand) (s t : State), s.mem.wf = true → o.isAddress = true → o'.isAddress = true →
    exec (.str ra o) s = .next t → operandValue t o' = operandValue s o →
    ∃ u, exec (.ldr rd o') t = .next u ∧ u.readReg rd = s.readReg ra

/-- Rules R62, R63, R254 at the default numbering (decision D1, log 6): the next fetch of a stored word sees it, and
executing it halts the core. -/
def Obligations.ExecutingAStoredWordHalts : Prop :=
  ∀ (ra : Reg) (o : Operand) (s t : State), s.mem.wf = true → s.running = true → s.phase = .idle → o.isAddress = true →
    exec (.str ra o) s = .next t →
    ∃ u, step (t.setPc (operandValue s o)) = .next u ∧ u.ir.toNat = (s.readReg ra).toNat ∧ u.running = false ∧
      u.status = .ok

/-! Arithmetic. -/

/-- Rule R140, for ADD (no carry-in) and ADC (carry-in C), with the frame of rules R25 and R29. V = 1 for two negatives
that add up to 0 is the spec's resolution of conflict C1 (entry I10), a parameter value of the model (log 7). -/
def Obligations.AddAndAdcFollowTheAdditionRule : Prop :=
  ∀ (ra : Reg) (o : Operand) (s : State), o.isValue = true →
    (∃ t, exec (.add ra o) s = .next t ∧
      AdditionEffect (s.readReg ra) (operandValue s o) 0 (t.readReg ra) t.ccr ∧
      (t.slot (slotOf ra)).toNat < 2 ^ 20 ∧ CompletesBut [slotOf ra] s t) ∧
    (∃ t, exec (.adc ra o) s = .next t ∧
      AdditionEffect (s.readReg ra) (operandValue s o) (if s.ccr.c then 1 else 0) (t.readReg ra) t.ccr ∧
      (t.slot (slotOf ra)).toNat < 2 ^ 20 ∧ CompletesBut [slotOf ra] s t)

/-- Rule R141 (its Z and N are decision D10's, log 7), for SUB (no borrow-in) and SBC (borrow-in `1 - C`), with the
frame. -/
def Obligations.SubAndSbcFollowTheSubtractionRule : Prop :=
  ∀ (ra : Reg) (o : Operand) (s : State), o.isValue = true →
    (∃ t, exec (.sub ra o) s = .next t ∧
      SubtractionEffect (s.readReg ra) (operandValue s o) 0 (t.readReg ra) t.ccr ∧
      (t.slot (slotOf ra)).toNat < 2 ^ 20 ∧ CompletesBut [slotOf ra] s t) ∧
    (∃ t, exec (.sbc ra o) s = .next t ∧
      SubtractionEffect (s.readReg ra) (operandValue s o) (if s.ccr.c then 0 else 1) (t.readReg ra) t.ccr ∧
      (t.slot (slotOf ra)).toNat < 2 ^ 20 ∧ CompletesBut [slotOf ra] s t)

/-- Rule R148 (Z and N by decision D10, log 7): CMP sets exactly the flags SUB would, and writes no register. -/
def Obligations.CmpSetsSubFlagsAndWritesNoRegister : Prop :=
  ∀ (ra : Reg) (o : Operand) (s : State), o.isValue = true →
    ∃ t, exec (.cmp ra o) s = .next t ∧ CompletesBut [] s t ∧
      ∃ u, exec (.sub ra o) s = .next u ∧ t.ccr = u.ccr ∧
        SubtractionEffect (s.readReg ra) (operandValue s o) 0 (u.readReg ra) t.ccr

/-- Rule R150: V is true signed overflow of the mathematical result, carry-in and borrow-in included. For two negatives
that add up to 0 this is the spec's resolution of conflict C1 (entry I10), a parameter value of the model (log 7). -/
def Obligations.OverflowFlagIsSignedOverflow : Prop :=
  ∀ (ra : Reg) (o : Operand) (s t : State), o.isValue = true →
    (exec (.add ra o) s = .next t → (t.ccr.v = true ↔
      ¬ (-524288 ≤ signedVal (s.readReg ra) + signedVal (operandValue s o) ∧
        signedVal (s.readReg ra) + signedVal (operandValue s o) ≤ 524287))) ∧
    (exec (.adc ra o) s = .next t → (t.ccr.v = true ↔
      ¬ (-524288 ≤ signedVal (s.readReg ra) + signedVal (operandValue s o) + (if s.ccr.c then 1 else 0) ∧
        signedVal (s.readReg ra) + signedVal (operandValue s o) + (if s.ccr.c then 1 else 0) ≤ 524287))) ∧
    (exec (.sub ra o) s = .next t ∨ exec (.cmp ra o) s = .next t → (t.ccr.v = true ↔
      ¬ (-524288 ≤ signedVal (s.readReg ra) - signedVal (operandValue s o) ∧
        signedVal (s.readReg ra) - signedVal (operandValue s o) ≤ 524287))) ∧
    (exec (.sbc ra o) s = .next t → (t.ccr.v = true ↔
      ¬ (-524288 ≤ signedVal (s.readReg ra) - signedVal (operandValue s o) - (if s.ccr.c then 0 else 1) ∧
        signedVal (s.readReg ra) - signedVal (operandValue s o) - (if s.ccr.c then 0 else 1) ≤ 524287)))

/-- Rule R149: after a SUB that borrowed, SBC subtracts no borrow; after one that did not, it subtracts 1. -/
def Obligations.SbcReadsCarryAgainstSubsBorrow : Prop :=
  ∀ (ra rb : Reg) (o o' : Operand) (s t : State), o.isValue = true → o'.isValue = true → exec (.sub ra o) s = .next t →
    ∃ u, exec (.sbc rb o') t = .next u ∧
      ((u.readReg rb).toNat : Int) =
        ((t.readReg rb).toNat - (operandValue t o').toNat -
          (if (s.readReg ra).toNat < (operandValue s o).toNat then 0 else 1)) % 2 ^ 20

/-! Shifts and rotates. -/

/-- Rules R160, R161, R164 (decisions D11, D12, D23, log 7): LSL by `n` multiplies by 2^n modulo 2^20 for every amount,
and the bit shifted out is bit 20 of the untruncated product. -/
def Obligations.LslMultipliesByAPowerOfTwo : Prop :=
  ∀ (ra : Reg) (o : Operand) (s : State), o.isValue = true →
    ∃ t, exec (.lsl ra o) s = .next t ∧
      (t.readReg ra).toNat = (s.readReg ra).toNat * 2 ^ (operandValue s o).toNat % 2 ^ 20 ∧
      ShiftFlags s.ccr (s.readReg ra) (t.readReg ra) (operandValue s o).toNat
        (decide ((s.readReg ra).toNat * 2 ^ (operandValue s o).toNat / 2 ^ 20 % 2 = 1)) t.ccr ∧
      (t.slot (slotOf ra)).toNat < 2 ^ 20 ∧ CompletesBut [slotOf ra] s t

/-- Rules R160, R162, R164 (decisions D11, D23, log 7): LSR by `n` divides by 2^n for every amount, and the bit shifted
out is bit `n - 1` of the value. -/
def Obligations.LsrDividesByAPowerOfTwo : Prop :=
  ∀ (ra : Reg) (o : Operand) (s : State), o.isValue = true →
    ∃ t, exec (.lsr ra o) s = .next t ∧
      (t.readReg ra).toNat = (s.readReg ra).toNat / 2 ^ (operandValue s o).toNat ∧
      ShiftFlags s.ccr (s.readReg ra) (t.readReg ra) (operandValue s o).toNat
        (decide ((s.readReg ra).toNat / 2 ^ ((operandValue s o).toNat - 1) % 2 = 1)) t.ccr ∧
      (t.slot (slotOf ra)).toNat < 2 ^ 20 ∧ CompletesBut [slotOf ra] s t

/-- Rules R160, R163, R164 (decisions D11, D13, D23, log 7): ASR by `n` divides the signed value by 2^n, rounding down,
for every amount; the bit shifted out is bit `n - 1` of the sign-extended value, and V ends 0. -/
def Obligations.AsrDividesTheSignedValue : Prop :=
  ∀ (ra : Reg) (o : Operand) (s : State), o.isValue = true →
    ∃ t, exec (.asr ra o) s = .next t ∧
      ((t.readReg ra).toNat : Int) = signedVal (s.readReg ra) / 2 ^ (operandValue s o).toNat % 2 ^ 20 ∧
      ShiftFlags s.ccr (s.readReg ra) (t.readReg ra) (operandValue s o).toNat
        (decide (signedVal (s.readReg ra) / 2 ^ ((operandValue s o).toNat - 1) % 2 = 1)) t.ccr ∧
      t.ccr.v = false ∧ (t.slot (slotOf ra)).toNat < 2 ^ 20 ∧ CompletesBut [slotOf ra] s t

/-- Rules R165, R166, R168 (decisions D11, D14, D15, log 7): ROL by `n` moves bit `j` to bit `(j + n) mod 20`, with C the
result's bit 0; by 0 it writes no slot at all and keeps C and V. -/
def Obligations.RolMovesEveryBitLeft : Prop :=
  ∀ (ra : Reg) (o : Operand) (s : State), o.isValue = true →
    ∃ t, exec (.rol ra o) s = .next t ∧
      (∀ j, j < 20 → (t.readReg ra).getLsbD ((j + (operandValue s o).toNat) % 20) = (s.readReg ra).getLsbD j) ∧
      RotateFlags s.ccr (s.readReg ra) (t.readReg ra) (operandValue s o).toNat ((t.readReg ra).getLsbD 0) t.ccr ∧
      ((operandValue s o).toNat ≠ 0 → (t.slot (slotOf ra)).toNat < 2 ^ 20 ∧ CompletesBut [slotOf ra] s t) ∧
      ((operandValue s o).toNat = 0 → CompletesBut [] s t)

/-- Rules R165, R167, R168 (decisions D11, D14, D15, log 7): ROR by `n` moves bit `(j + n) mod 20` to bit `j`, with C the
result's bit 19; by 0 it writes no slot at all and keeps C and V. -/
def Obligations.RorMovesEveryBitRight : Prop :=
  ∀ (ra : Reg) (o : Operand) (s : State), o.isValue = true →
    ∃ t, exec (.ror ra o) s = .next t ∧
      (∀ j, j < 20 → (t.readReg ra).getLsbD j = (s.readReg ra).getLsbD ((j + (operandValue s o).toNat) % 20)) ∧
      RotateFlags s.ccr (s.readReg ra) (t.readReg ra) (operandValue s o).toNat ((t.readReg ra).getLsbD 19) t.ccr ∧
      ((operandValue s o).toNat ≠ 0 → (t.slot (slotOf ra)).toNat < 2 ^ 20 ∧ CompletesBut [slotOf ra] s t) ∧
      ((operandValue s o).toNat = 0 → CompletesBut [] s t)

/-- Rule R165 (C by decision D14, log 7): a rotate by a non-zero multiple of 20 is a full rotation. The value stays, V
is 0, and C is bit 0 after ROL and bit 19 after ROR. -/
def Obligations.FullRotationKeepsTheValue : Prop :=
  ∀ (ra : Reg) (o : Operand) (s t : State), o.isValue = true → (operandValue s o).toNat ≠ 0 →
    (operandValue s o).toNat % 20 = 0 → exec (.rol ra o) s = .next t ∨ exec (.ror ra o) s = .next t →
    t.readReg ra = s.readReg ra ∧ t.ccr.v = false ∧ ZNOf t.ccr (s.readReg ra) ∧
    (exec (.rol ra o) s = .next t → t.ccr.c = (s.readReg ra).getLsbD 0) ∧
    (exec (.ror ra o) s = .next t → t.ccr.c = (s.readReg ra).getLsbD 19)

/-- Rules R166, R167: a ROR by an amount undoes a ROL by the same amount. -/
def Obligations.RorUndoesRol : Prop :=
  ∀ (ra : Reg) (o o' : Operand) (s t u : State), o.isValue = true → o'.isValue = true → exec (.rol ra o) s = .next t →
    operandValue t o' = operandValue s o → exec (.ror ra o') t = .next u → u.readReg ra = s.readReg ra

/-! Logic. -/

/-- Rule R180: AND, ORR, EOR and NOT write the bitwise result to register A, set Z and N from it, and leave C and V. AND,
ORR and EOR have modes 00 and 01, NOT mode 00 only. That any other mode ends in an error that changes nothing but the
status is rules R84, R107 and R215 (decisions D8, D9, log 1). -/
def Obligations.LogicWritesBitwiseResultsAndZN : Prop :=
  ∀ (ra : Reg) (o : Operand) (m : Mode) (s : State),
    (∀ p ∈ ([(.and ra o, fun x y => x && y), (.orr ra o, fun x y => x || y), (.eor ra o, fun x y => x ^^ y)] :
        List (Instr × (Bool → Bool → Bool))),
      (o.isValue = true → ∃ t, exec p.1 s = .next t ∧
        (∀ j, j < 20 → (t.readReg ra).getLsbD j = p.2 ((s.readReg ra).getLsbD j) ((operandValue s o).getLsbD j)) ∧
        ZNOf t.ccr (t.readReg ra) ∧ t.ccr.c = s.ccr.c ∧ t.ccr.v = s.ccr.v ∧
        (t.slot (slotOf ra)).toNat < 2 ^ 20 ∧ CompletesBut [slotOf ra] s t) ∧
      (o.isValue = false → ∃ t, exec p.1 s = .next t ∧ t.status.isError = true ∧ t = s.report t.status)) ∧
    (m = .immediate → ∃ t, exec (.not ra m) s = .next t ∧
      (∀ j, j < 20 → (t.readReg ra).getLsbD j = !(s.readReg ra).getLsbD j) ∧
      ZNOf t.ccr (t.readReg ra) ∧ t.ccr.c = s.ccr.c ∧ t.ccr.v = s.ccr.v ∧
      (t.slot (slotOf ra)).toNat < 2 ^ 20 ∧ CompletesBut [slotOf ra] s t) ∧
    (m ≠ .immediate → ∃ t, exec (.not ra m) s = .next t ∧ t.status.isError = true ∧ t = s.report t.status)

/-- Rule R184's corner case: NOT twice restores the value. -/
def Obligations.NotTwiceRestoresTheRegister : Prop :=
  ∀ (ra : Reg) (s t : State), exec (.not ra .immediate) s = .next t →
    ∃ u, exec (.not ra .immediate) t = .next u ∧ u.readReg ra = s.readReg ra

/-! Control flow. -/

/-- Rules R190 to R199: each of the eight branches sets `pc` to its operand iff its one flag has its value, leaves `pc` as
fetch left it otherwise, and writes no general register, flag or memory. -/
def Obligations.EachBranchTestsItsOneFlag : Prop :=
  ∀ (o : Operand) (s : State), o.isAddress = true →
    ∀ p ∈ ([(.bcc o, !s.ccr.c), (.bcs o, s.ccr.c), (.bpl o, !s.ccr.n), (.bmi o, s.ccr.n),
        (.bne o, !s.ccr.z), (.beq o, s.ccr.z), (.bvc o, !s.ccr.v), (.bvs o, s.ccr.v)] : List (Instr × Bool)),
      ∃ t, exec p.1 s = .next t ∧
        (p.2 = true → holds t pcReg (operandValue s o) ∧ CompletesBut [slotOf pcReg] s t) ∧
        (p.2 = false → CompletesBut [] s t) ∧ t.ccr = s.ccr

/-- Rule R200: JMP sets `pc` to its operand and changes nothing else. -/
def Obligations.JmpSetsPcToItsOperand : Prop :=
  ∀ (o : Operand) (s : State), o.isAddress = true →
    ∃ t, exec (.jmp o) s = .next t ∧ holds t pcReg (operandValue s o) ∧ t.ccr = s.ccr ∧ CompletesBut [slotOf pcReg] s t

/-- Rule R202: HLT in mode 00 makes the core Halted and touches no register, flag or memory; in any other mode it ends
in UnsupportedAddressingMode, with the record of rule R211 (decision D16: the raw op and mode of the held word, that
word and its address), and does not halt. That the error changes nothing else and is a next state is decisions D8 and D9
and log 1. -/
def Obligations.HltHaltsOnlyInItsMode : Prop :=
  ∀ s : State,
    (∃ t, exec (.hlt .immediate) s = .next t ∧ finished t = true ∧ t.regs = s.regs ∧ t.ccr = s.ccr ∧ t.mem = s.mem ∧
      t.phase = s.phase ∧ t.status = .ok) ∧
    (∀ m : Mode, m ≠ .immediate → ∃ t, exec (.hlt m) s = .next t ∧
      TakesError (.unsupportedAddressingMode (decodeRecord s.ir).op (decodeRecord s.ir).mode) s t ∧
      t.running = s.running)

/-- Rule R203: a branch whose target is the address of the next instruction has the same effect taken or not: none but the
status. -/
def Obligations.BranchToTheNextAddressChangesNothing : Prop :=
  ∀ (o : Operand) (s : State), o.isAddress = true → s.slotsMasked → operandValue s o = s.pc →
    ∀ i ∈ ([.bcc o, .bcs o, .bpl o, .bmi o, .bne o, .beq o, .bvc o, .bvs o] : List Instr),
      exec i s = .next (s.report .ok)

/-! The machine under another opcode numbering. -/

/-- Rules R9, R101, R103, R211, R214, R215 (decisions D1, D8, D9, D16, logs 1 and 6; D3, log 7, for the wrap of `pc`):
whatever the numbering, a step runs the instruction the numbering decodes, in a permitted mode or with the numbering's
own raw values in the error; an `op` it does not assign raises InvalidOpcode; the sub-phases in order are one step; and
`step` is the machine at the default numbering. -/
def Obligations.StepFollowsEveryNumbering : Prop :=
  ∀ (num : Numbering) (s : State), s.running = true → s.phase = .idle →
    (∀ i, decodeWith num (s.readMem s.pc) = .ok i → stepWith num specParams s = exec i (fetch s) ∧ FetchOnly s (fetch s) ∧
      (i.wellFormed = false → ∃ t, stepWith num specParams s = .next t ∧ FetchOnly s t ∧
        t.status = .error
          ⟨.unsupportedAddressingMode (num i.mnemonic) (codeOfMode i.mode), s.readMem s.pc, s.pc⟩)) ∧
    (∀ m, Function.Injective num → num m = (decodeRecord (s.readMem s.pc)).op →
      ∃ i, decodeWith num (s.readMem s.pc) = .ok i ∧ i.mnemonic = m) ∧
    ((∀ m, num m ≠ (decodeRecord (s.readMem s.pc)).op) → ∃ t, stepWith num specParams s = .next t ∧ FetchOnly s t ∧
      t.status = .error ⟨.invalidOpcode (decodeRecord (s.readMem s.pc)).op, s.readMem s.pc, s.pc⟩) ∧
    (∃ u v, hostFetch s = .next u ∧ hostDecode u = .next (v, decodeRecord (s.readMem s.pc)) ∧
      hostExecuteWith num v = stepWith num specParams s) ∧
    step s = stepWith opcodeOf specParams s

/-- Rule R63 under every numbering (decision D1, log 6): a word that a program stored runs, in mode 00, as the mnemonic
numbered 0, with the operands its bits give, or raises InvalidOpcode if none is numbered 0. Then only fetch's writes
happen (rule R107, decision D8), which wrap `pc` at 2^20 - 1 (decision D3, log 7), and the record is that of rule R211
(decision D16, log 1). -/
def Obligations.StoredWordRunsTheMnemonicNumberedZero : Prop :=
  ∀ (num : Numbering) (ra : Reg) (o : Operand) (s t : State), s.mem.wf = true → s.running = true → s.phase = .idle →
    o.isAddress = true → exec (.str ra o) s = .next t →
    (∀ m, Function.Injective num → num m = 0b00000#5 →
      ∃ i, i.mnemonic = m ∧ i.mode = .immediate ∧ encodeWith num i = zext32 (s.readReg ra) &&& usedBits i ∧
        stepWith num specParams (t.setPc (operandValue s o)) = exec i (fetch (t.setPc (operandValue s o)))) ∧
    ((∀ m, num m ≠ 0b00000#5) → ∃ u, stepWith num specParams (t.setPc (operandValue s o)) = .next u ∧
      FetchOnly (t.setPc (operandValue s o)) u ∧
      u.status = .error ⟨.invalidOpcode 0b00000#5, zext32 (s.readReg ra), operandValue s o⟩)
end

