-- ==== Sys2Proof/Laws/Decode.lean ====
section
/-! SUPPORT. Small facts about the encoding: the fields of a packed word, the mode codes, the register fields. -/

namespace Sys2Proof

@[simp] theorem modeOfCode_codeOfMode (m : Mode) : modeOfCode (codeOfMode m) = m := by cases m <;> rfl

@[simp] theorem regOfField_fieldOfReg (r : Reg) : regOfField (fieldOfReg r) = r := by
  apply Fin.ext
  have := r.isLt
  simp only [regOfField, fieldOfReg, BitVec.toNat_ofNat]
  omega

@[simp] theorem fieldOfReg_regOfField (f : BitVec 4) : fieldOfReg (regOfField f) = f := by
  simp [regOfField, fieldOfReg]

/-- A packed word as a number: rule R91's formula. -/
theorem packWord_toNat (op : BitVec 5) (md : BitVec 2) (ra : BitVec 4) (low : BitVec 20) :
    (packWord op md ra low).toNat = op.toNat * 2 ^ 27 + md.toNat * 2 ^ 25 + ra.toNat * 2 ^ 20 + low.toNat := by
  have h1 := md.isLt
  have h2 := ra.isLt
  have h3 := low.isLt
  simp only [packWord, BitVec.toNat_append, Nat.shiftLeft_eq, BitVec.toNat_ofNat]
  rw [← Nat.shiftLeft_eq, ← Nat.shiftLeft_add_eq_or_of_lt h3, ← Nat.shiftLeft_eq, ← Nat.shiftLeft_add_eq_or_of_lt h2,
    ← Nat.shiftLeft_eq, ← Nat.shiftLeft_add_eq_or_of_lt (by decide : 0 % 2 ^ 1 < 2 ^ 1), ← Nat.shiftLeft_eq,
    ← Nat.shiftLeft_add_eq_or_of_lt h1]
  simp only [Nat.shiftLeft_eq]
  omega

/-- A field of a word as a number. -/
theorem extract_toNat (w : Word) (lo len : Nat) : (w.extractLsb' lo len).toNat = w.toNat / 2 ^ lo % 2 ^ len := by
  simp [BitVec.extractLsb'_toNat, Nat.shiftRight_eq_div_pow]

/-- The decoded record of a packed word has the fields it was packed from (rule R70). -/
theorem decodeRecord_packWord (op : BitVec 5) (md : BitVec 2) (ra : BitVec 4) (low : BitVec 20) :
    decodeRecord (packWord op md ra low) = ⟨op, md, ra, low.extractLsb' 16 4, low⟩ := by
  have h0 := op.isLt
  have h1 := md.isLt
  have h2 := ra.isLt
  have h3 := low.isLt
  simp only [decodeRecord, DecodedRecord.mk.injEq]
  refine ⟨?_, ?_, ?_, ?_, ?_⟩ <;> apply BitVec.eq_of_toNat_eq <;>
    simp only [extract_toNat, packWord_toNat, BitVec.extractLsb'_toNat, Nat.shiftRight_eq_div_pow] <;> omega

@[simp] theorem codeOfMode_modeOfCode (c : BitVec 2) : codeOfMode (modeOfCode c) = c := by revert c; decide

@[simp] theorem operandOf_mode (d : DecodedRecord) : (operandOf d).mode = modeOfCode d.mode := by
  unfold operandOf
  split <;> simp_all [Operand.mode]

@[simp] theorem instrOf_mnemonic (m : Mnemonic) (d : DecodedRecord) : (instrOf m d).mnemonic = m := by cases m <;> rfl

@[simp] theorem instrOf_mode (m : Mnemonic) (d : DecodedRecord) : (instrOf m d).mode = modeOfCode d.mode := by
  cases m <;> simp [instrOf, Instr.mode]

/-- The mnemonic read for an `op` is numbered by it. -/
theorem num_of_mnemonicOf {num : Numbering} {op : BitVec 5} {m : Mnemonic} (h : mnemonicOf num op = some m) :
    num m = op := by
  simpa using List.find?_some h

/-- No mnemonic is read for an `op` exactly when the numbering does not assign it (rule R73). -/
theorem mnemonicOf_eq_none {num : Numbering} {op : BitVec 5} : mnemonicOf num op = none ↔ ∀ m, num m ≠ op := by
  have hall : ∀ m, m ∈ Mnemonic.all := fun m => by cases m <;> decide
  simp [mnemonicOf, List.find?_eq_none, hall]

/-- An injective numbering reads back the mnemonic it numbered (rule R9). -/
theorem mnemonicOf_num {num : Numbering} (h : Function.Injective num) (m : Mnemonic) : mnemonicOf num (num m) = some m := by
  cases e : mnemonicOf num (num m) with
  | none => exact absurd rfl (mnemonicOf_eq_none.mp e m)
  | some m' => rw [h (num_of_mnemonicOf e)]

/-- Everything decoding can answer, and the raw fields of what it answers (rules R71, R73, R103). -/
theorem decodeWith_ok {num : Numbering} {w : Word} {i : Instr} (h : decodeWith num w = .ok i) :
    i = instrOf i.mnemonic (decodeRecord w) ∧ num i.mnemonic = (decodeRecord w).op ∧
      codeOfMode i.mode = (decodeRecord w).mode := by
  simp only [decodeWith, instrOfRecord] at h
  split at h
  · rename_i m hm
    cases h
    simp [num_of_mnemonicOf hm]
  · cases h

theorem decodeWith_error {num : Numbering} {w : Word} {e : DecodeError} (h : decodeWith num w = .error e) :
    e = .unassignedOpcode (decodeRecord w).op ∧ ∀ m, num m ≠ (decodeRecord w).op := by
  simp only [decodeWith, instrOfRecord] at h
  split at h
  · cases h
  · rename_i hn
    cases h
    exact ⟨rfl, mnemonicOf_eq_none.mp hn⟩

end Sys2Proof
end

