-- ==== Sys2Proof/Laws/Values.lean ====
section
/-! SUPPORT. Lemmas about the 20-bit primitives of rules R12, R13 and R114. -/

namespace Sys2Proof.Machine

@[simp] theorem low20_zext32 (v : Val) : low20 (zext32 v) = v := by
  simp [low20, zext32]

theorem zext32_toNat (v : Val) : (zext32 v).toNat = v.toNat := by
  have := v.isLt
  simp only [zext32, BitVec.toNat_setWidth]
  omega

theorem low20_toNat (w : Word) : (low20 w).toNat = w.toNat % 2 ^ 20 := by
  simp [low20]

/-- A zero-extended value has bits 31:20 zero (rule R22). -/
theorem zext32_toNat_lt (v : Val) : (zext32 v).toNat < 2 ^ 20 := by
  rw [zext32_toNat]
  exact v.isLt

/-- A word with bits 31:20 zero is its own low 20 bits, zero-extended. -/
theorem zext32_low20_of_lt {w : Word} (h : w.toNat < 2 ^ 20) : zext32 (low20 w) = w := by
  apply BitVec.eq_of_toNat_eq
  rw [zext32_toNat, low20_toNat, Nat.mod_eq_of_lt h]

/-- `trunc20` of a natural number is that number modulo 2^20 (rule R13). -/
theorem trunc20_natCast (n : Nat) : trunc20 (n : Int) = BitVec.ofNat 20 n := by
  simp [trunc20]

theorem trunc20_natCast_toNat (n : Nat) : (trunc20 (n : Int)).toNat = n % 2 ^ 20 := by
  simp [trunc20_natCast]

/-- `trunc20` of any integer is that integer modulo 2^20 (rule R13). -/
theorem trunc20_toNat (v : Int) : ((trunc20 v).toNat : Int) = v % 2 ^ 20 := by
  simp only [trunc20, BitVec.toNat_ofInt]
  omega

@[simp] theorem trunc20_toNat_self (v : Val) : trunc20 (v.toNat : Int) = v := by
  simp [trunc20_natCast]

/-- `sign` compares the value with 2^19 (rule R12: a value of 0x80000 and above is negative). -/
theorem sign_eq_decide (v : Val) : sign v = decide (2 ^ 19 ≤ v.toNat) := by
  have h : v.msb = v.getLsbD 19 := by simp [BitVec.msb_eq_getLsbD_last]
  rw [sign, ← h, BitVec.msb_eq_decide]

/-- `signed` is the two's-complement value (rule R12). -/
theorem signedVal_eq_toInt (v : Val) : signedVal v = v.toInt := by
  have hlt := v.isLt
  rw [signedVal, sign_eq_decide, BitVec.toInt_eq_toNat_cond]
  by_cases h : 2 ^ 19 ≤ v.toNat
  · rw [if_pos (decide_eq_true h), if_neg (by omega)]
    rfl
  · rw [if_neg (by simpa using h), if_pos (by omega)]

/-- The address after a value's, back again: `trunc20 ((v + 1) - 1) = v`. -/
theorem trunc20_pred_succ (v : Val) : trunc20 (((trunc20 ((v.toNat : Int) + 1)).toNat : Int) - 1) = v := by
  have hv := v.isLt
  apply BitVec.eq_of_toNat_eq
  have h1 := trunc20_toNat (((trunc20 ((v.toNat : Int) + 1)).toNat : Int) - 1)
  have h2 := trunc20_toNat ((v.toNat : Int) + 1)
  omega

end Sys2Proof.Machine
end

