-- ==== Sys2Proof/Laws/State.lean ====
section
/-! SUPPORT. One lemma per field per update, and what each register write leaves in each register. -/

namespace Sys2Proof.Machine

section Fields
variable (s : State) (i j : Slot) (r r' : Reg) (v a : Val) (w : Word) (f : Flags) (st : Status) (ph : Phase)

@[simp] theorem setSlot_ccr : (s.setSlot i w).ccr = s.ccr := rfl
@[simp] theorem setSlot_running : (s.setSlot i w).running = s.running := rfl
@[simp] theorem setSlot_mem : (s.setSlot i w).mem = s.mem := rfl
@[simp] theorem setSlot_phase : (s.setSlot i w).phase = s.phase := rfl
@[simp] theorem setSlot_status : (s.setSlot i w).status = s.status := rfl

@[simp] theorem writeReg_ccr : (s.writeReg r v).ccr = s.ccr := rfl
@[simp] theorem writeReg_running : (s.writeReg r v).running = s.running := rfl
@[simp] theorem writeReg_mem : (s.writeReg r v).mem = s.mem := rfl
@[simp] theorem writeReg_phase : (s.writeReg r v).phase = s.phase := rfl
@[simp] theorem writeReg_status : (s.writeReg r v).status = s.status := rfl
@[simp] theorem writeReg_readMem : (s.writeReg r v).readMem a = s.readMem a := rfl

@[simp] theorem setPc_ccr : (s.setPc v).ccr = s.ccr := rfl
@[simp] theorem setPc_running : (s.setPc v).running = s.running := rfl
@[simp] theorem setPc_mem : (s.setPc v).mem = s.mem := rfl
@[simp] theorem setPc_phase : (s.setPc v).phase = s.phase := rfl
@[simp] theorem setPc_status : (s.setPc v).status = s.status := rfl
@[simp] theorem setPc_readMem : (s.setPc v).readMem a = s.readMem a := rfl

@[simp] theorem setIr_ccr : (s.setIr w).ccr = s.ccr := rfl
@[simp] theorem setIr_running : (s.setIr w).running = s.running := rfl
@[simp] theorem setIr_mem : (s.setIr w).mem = s.mem := rfl
@[simp] theorem setIr_phase : (s.setIr w).phase = s.phase := rfl
@[simp] theorem setIr_status : (s.setIr w).status = s.status := rfl
@[simp] theorem setIr_readMem : (s.setIr w).readMem a = s.readMem a := rfl

@[simp] theorem setFlags_ccr : (s.setFlags f).ccr = f := rfl
@[simp] theorem setFlags_running : (s.setFlags f).running = s.running := rfl
@[simp] theorem setFlags_mem : (s.setFlags f).mem = s.mem := rfl
@[simp] theorem setFlags_phase : (s.setFlags f).phase = s.phase := rfl
@[simp] theorem setFlags_status : (s.setFlags f).status = s.status := rfl
@[simp] theorem setFlags_slot : (s.setFlags f).slot i = s.slot i := rfl
@[simp] theorem setFlags_readReg : (s.setFlags f).readReg r = s.readReg r := rfl
@[simp] theorem setFlags_pc : (s.setFlags f).pc = s.pc := rfl
@[simp] theorem setFlags_ir : (s.setFlags f).ir = s.ir := rfl
@[simp] theorem setFlags_readMem : (s.setFlags f).readMem a = s.readMem a := rfl

@[simp] theorem writeMem_ccr : (s.writeMem a w).ccr = s.ccr := rfl
@[simp] theorem writeMem_running : (s.writeMem a w).running = s.running := rfl
@[simp] theorem writeMem_mem : (s.writeMem a w).mem = s.mem.write a w := rfl
@[simp] theorem writeMem_phase : (s.writeMem a w).phase = s.phase := rfl
@[simp] theorem writeMem_status : (s.writeMem a w).status = s.status := rfl
@[simp] theorem writeMem_slot : (s.writeMem a w).slot i = s.slot i := rfl
@[simp] theorem writeMem_readReg : (s.writeMem a w).readReg r = s.readReg r := rfl
@[simp] theorem writeMem_pc : (s.writeMem a w).pc = s.pc := rfl
@[simp] theorem writeMem_ir : (s.writeMem a w).ir = s.ir := rfl

@[simp] theorem report_ccr : (s.report st).ccr = s.ccr := rfl
@[simp] theorem report_running : (s.report st).running = s.running := rfl
@[simp] theorem report_mem : (s.report st).mem = s.mem := rfl
@[simp] theorem report_phase : (s.report st).phase = s.phase := rfl
@[simp] theorem report_status : (s.report st).status = st := rfl
@[simp] theorem report_slot : (s.report st).slot i = s.slot i := rfl
@[simp] theorem report_readReg : (s.report st).readReg r = s.readReg r := rfl
@[simp] theorem report_pc : (s.report st).pc = s.pc := rfl
@[simp] theorem report_ir : (s.report st).ir = s.ir := rfl
@[simp] theorem report_readMem : (s.report st).readMem a = s.readMem a := rfl

@[simp] theorem halt_ccr : s.halt.ccr = s.ccr := rfl
@[simp] theorem halt_running : s.halt.running = false := rfl
@[simp] theorem halt_mem : s.halt.mem = s.mem := rfl
@[simp] theorem halt_phase : s.halt.phase = s.phase := rfl
@[simp] theorem halt_status : s.halt.status = s.status := rfl
@[simp] theorem halt_slot : s.halt.slot i = s.slot i := rfl
@[simp] theorem halt_readReg : s.halt.readReg r = s.readReg r := rfl
@[simp] theorem halt_pc : s.halt.pc = s.pc := rfl
@[simp] theorem halt_ir : s.halt.ir = s.ir := rfl
@[simp] theorem halt_readMem : s.halt.readMem a = s.readMem a := rfl

@[simp] theorem setPhase_ccr : (s.setPhase ph).ccr = s.ccr := rfl
@[simp] theorem setPhase_running : (s.setPhase ph).running = s.running := rfl
@[simp] theorem setPhase_mem : (s.setPhase ph).mem = s.mem := rfl
@[simp] theorem setPhase_phase : (s.setPhase ph).phase = ph := rfl
@[simp] theorem setPhase_status : (s.setPhase ph).status = s.status := rfl
@[simp] theorem setPhase_slot : (s.setPhase ph).slot i = s.slot i := rfl
@[simp] theorem setPhase_readReg : (s.setPhase ph).readReg r = s.readReg r := rfl
@[simp] theorem setPhase_pc : (s.setPhase ph).pc = s.pc := rfl
@[simp] theorem setPhase_ir : (s.setPhase ph).ir = s.ir := rfl
@[simp] theorem setPhase_readMem : (s.setPhase ph).readMem a = s.readMem a := rfl

/-- A slot write: the slot named holds the word, every other slot is unchanged. -/
theorem slot_setSlot : (s.setSlot i w).slot j = if j = i then w else s.slot j := by
  by_cases h : j = i
  · subst h; simp [State.slot, State.setSlot]
  · have : i.val ≠ j.val := fun e => h (Fin.ext e.symm)
    simp [State.slot, State.setSlot, h, this]

@[simp] theorem slotOf_inj : slotOf r = slotOf r' ↔ r = r' := by
  simp [slotOf, Fin.ext_iff]

@[simp] theorem slotOf_ne_irSlot : slotOf r ≠ irSlot := by
  intro h
  have : r.val = 16 := congrArg Fin.val h
  omega

@[simp] theorem irSlot_ne_slotOf : irSlot ≠ slotOf r := fun h => slotOf_ne_irSlot r h.symm

theorem slot_writeReg : (s.writeReg r v).slot j = if j = slotOf r then zext32 v else s.slot j :=
  slot_setSlot s (slotOf r) j (zext32 v)

/-- Every slot but the one a register write names is unchanged. -/
theorem slot_writeReg_other (h : j ≠ slotOf r) : (s.writeReg r v).slot j = s.slot j := by
  rw [slot_writeReg, if_neg h]

theorem readReg_writeReg : (s.writeReg r v).readReg r' = if r' = r then v else s.readReg r' := by
  by_cases h : r' = r <;> simp [State.readReg, slot_writeReg, h]

@[simp] theorem readReg_writeReg_self : (s.writeReg r v).readReg r = v := by
  simp [readReg_writeReg]

@[simp] theorem writeReg_ir : (s.writeReg r v).ir = s.ir := by
  simp [State.ir, slot_writeReg]

@[simp] theorem setPc_pc : (s.setPc v).pc = v := readReg_writeReg_self s pcReg v

@[simp] theorem setPc_ir : (s.setPc v).ir = s.ir := writeReg_ir s pcReg v

theorem slot_setPc : (s.setPc v).slot j = if j = slotOf pcReg then zext32 v else s.slot j :=
  slot_writeReg s j pcReg v

theorem readReg_setPc : (s.setPc v).readReg r = if r = pcReg then v else s.readReg r :=
  readReg_writeReg s pcReg r v

theorem slot_setIr : (s.setIr w).slot j = if j = irSlot then w else s.slot j := slot_setSlot s irSlot j w

@[simp] theorem setIr_ir : (s.setIr w).ir = w := by
  simp [State.ir, slot_setIr]

@[simp] theorem setIr_readReg : (s.setIr w).readReg r = s.readReg r := by
  simp [State.readReg, slot_setIr]

@[simp] theorem setIr_pc : (s.setIr w).pc = s.pc := setIr_readReg s pcReg w

end Fields

/-- Two register files with equal slots are equal. -/
theorem regs_ext {s t : State} (h : ∀ i : Slot, s.slot i = t.slot i) : s.regs = t.regs := by
  apply Vector.ext
  intro k hk
  exact h ⟨k, hk⟩

/-- A state is its slots, flags, running bit, memory, phase and status. -/
theorem state_ext {s t : State} (hr : ∀ i : Slot, s.slot i = t.slot i) (hc : s.ccr = t.ccr)
    (hu : s.running = t.running) (hm : s.mem = t.mem) (hp : s.phase = t.phase) (hs : s.status = t.status) : s = t := by
  have := regs_ext hr
  cases s; cases t; simp_all

end Sys2Proof.Machine
end

