-- ==== Sys2Proof/Laws/Memory.lean ====
section
/-! SUPPORT. Memory: what a read finds after a write, and that every memory operation keeps the canonical form. -/

namespace Sys2Proof.Machine

theorem cellsFrom_mono {lo lo' : Nat} (h : lo' ≤ lo) {l : List MemCell} (hl : cellsFrom lo l = true) :
    cellsFrom lo' l = true := by
  cases l with
  | nil => rfl
  | cons c rest =>
    simp only [cellsFrom, Bool.and_eq_true, decide_eq_true_eq] at hl ⊢
    exact ⟨⟨⟨by omega, hl.1.1.2⟩, hl.1.2⟩, hl.2⟩

/-- An index below every listed one reads as the background. -/
theorem lookupCell_below {lo : Nat} {l : List MemCell} (hl : cellsFrom lo l = true) {b : Nat} (hb : b < lo) :
    lookupCell l b = Memory.background := by
  induction l generalizing lo with
  | nil => rfl
  | cons c rest ih =>
    obtain ⟨a, w⟩ := c
    simp only [cellsFrom, Bool.and_eq_true, decide_eq_true_eq] at hl
    have hne : a ≠ b := by omega
    simp only [lookupCell, if_neg hne]
    exact ih hl.2 (by omega)

/-- Read after write at the same index (rule R60). -/
theorem lookupCell_storeCell_same {lo : Nat} {l : List MemCell} (hl : cellsFrom lo l = true) (a : Nat) (w : Word) :
    lookupCell (storeCell l a w) a = w := by
  induction l generalizing lo with
  | nil =>
    by_cases hw : w = Memory.background <;> simp [storeCell, lookupCell, hw]
  | cons c rest ih =>
    obtain ⟨b, x⟩ := c
    have hl' := hl
    simp only [cellsFrom, Bool.and_eq_true, decide_eq_true_eq] at hl'
    by_cases h1 : a < b
    · by_cases hw : w = Memory.background
      · simp only [storeCell, if_pos h1, if_pos hw, lookupCell, if_neg (show b ≠ a by omega)]
        rw [lookupCell_below hl'.2 (by omega), hw]
      · simp [storeCell, h1, hw, lookupCell]
    · by_cases h2 : a = b
      · by_cases hw : w = Memory.background
        · simp only [storeCell, if_neg h1, if_pos h2, if_pos hw]
          rw [lookupCell_below hl'.2 (by omega), hw]
        · simp [storeCell, h2, hw, lookupCell]
      · simp only [storeCell, if_neg h1, if_neg h2, lookupCell, if_neg (Ne.symm h2)]
        exact ih hl'.2

/-- A write leaves every other index alone, whatever the list. -/
theorem lookupCell_storeCell_other (l : List MemCell) {a b : Nat} (h : b ≠ a) (w : Word) :
    lookupCell (storeCell l a w) b = lookupCell l b := by
  have hab : a ≠ b := h.symm
  induction l with
  | nil => by_cases hw : w = Memory.background <;> simp [storeCell, lookupCell, hw, hab]
  | cons c rest ih =>
    obtain ⟨d, x⟩ := c
    by_cases h1 : a < d
    · by_cases hw : w = Memory.background <;> simp [storeCell, h1, hw, lookupCell, hab]
    · by_cases h2 : a = d
      · subst h2
        by_cases hw : w = Memory.background <;> simp [storeCell, hw, lookupCell, hab]
      · simp [storeCell, h1, h2, lookupCell, ih]

theorem cellsFrom_storeCell {lo : Nat} {l : List MemCell} (hl : cellsFrom lo l = true) {a : Nat} (hlo : lo ≤ a)
    (ha : a < memWords) (w : Word) : cellsFrom lo (storeCell l a w) = true := by
  induction l generalizing lo with
  | nil =>
    by_cases hw : w = Memory.background
    · simp [storeCell, hw, cellsFrom]
    · simp only [storeCell, if_neg hw, cellsFrom, Bool.and_eq_true, decide_eq_true_eq]
      exact ⟨⟨⟨hlo, ha⟩, hw⟩, trivial⟩
  | cons c rest ih =>
    obtain ⟨b, x⟩ := c
    have hl' := hl
    simp only [cellsFrom, Bool.and_eq_true, decide_eq_true_eq] at hl'
    by_cases h1 : a < b
    · by_cases hw : w = Memory.background
      · simpa only [storeCell, if_pos h1, if_pos hw] using hl
      · simp only [storeCell, if_pos h1, if_neg hw, cellsFrom, Bool.and_eq_true, decide_eq_true_eq]
        exact ⟨⟨⟨hlo, ha⟩, hw⟩, ⟨⟨⟨by omega, hl'.1.1.2⟩, hl'.1.2⟩, hl'.2⟩⟩
    · by_cases h2 : a = b
      · by_cases hw : w = Memory.background
        · simp only [storeCell, if_neg h1, if_pos h2, if_pos hw]
          exact cellsFrom_mono (by omega) hl'.2
        · simp only [storeCell, if_neg h1, if_pos h2, if_neg hw, cellsFrom, Bool.and_eq_true, decide_eq_true_eq]
          exact ⟨⟨⟨hlo, ha⟩, hw⟩, h2 ▸ hl'.2⟩
      · simp only [storeCell, if_neg h1, if_neg h2, cellsFrom, Bool.and_eq_true, decide_eq_true_eq]
        exact ⟨hl'.1, ih hl'.2 (by omega)⟩

/-- Reading a word just written gives it (rules R57 and R60), in a memory in canonical form. -/
theorem read_write_same {m : Memory} (h : m.wf = true) (a : Val) (w : Word) : (m.write a w).read a = w :=
  lookupCell_storeCell_same h a.toNat w

/-- A write leaves every other word alone. -/
theorem read_write_other (m : Memory) {a b : Val} (h : b ≠ a) (w : Word) : (m.write a w).read b = m.read b :=
  lookupCell_storeCell_other m.cells (fun e => h (BitVec.eq_of_toNat_eq e)) w

/-- A write keeps the canonical form. -/
theorem write_wf {m : Memory} (h : m.wf = true) (a : Val) (w : Word) : (m.write a w).wf = true :=
  cellsFrom_storeCell h (Nat.zero_le _) a.isLt w

/-- The memory of the reset state has the canonical form. -/
theorem reset_mem_wf : State.reset.mem.wf = true := rfl

theorem readMem_writeMem_same {s : State} (h : s.mem.wf = true) (a : Val) (w : Word) :
    (s.writeMem a w).readMem a = w := read_write_same h a w

theorem readMem_writeMem_other (s : State) {a b : Val} (h : b ≠ a) (w : Word) :
    (s.writeMem a w).readMem b = s.readMem b := read_write_other s.mem h w

end Sys2Proof.Machine
end

