-- ==== Sys2Proof/Laws/Ops.lean ====
section
/-! SUPPORT. What each shared operation can do, said once: the end of an instruction, raising an error, the mode check,
fetch, and one step. -/

namespace Sys2Proof.Machine

theorem finish_eq (s : State) : finish s = .next (s.report .ok) := rfl

theorem raise_eq (k : ErrorKind) (s : State) : raise k s = .next (s.report (.error (errorRecord k s))) := rfl

theorem commitAlu_eq (ra : Reg) (r : AluResult) (s : State) :
    commitAlu ra r s = .next (((s.setFlags r.flags).writeReg ra r.res).report .ok) := rfl

/-- The outcome `next` determines its state. -/
theorem next_inj {s t : State} : (Host.Outcome.next s : StepOutcome) = .next t ↔ s = t :=
  ⟨fun h => by injection h, fun h => h ▸ rfl⟩

/-- The mode check: the instruction runs in a permitted mode, and raises the error of rule R215 in any other. -/
theorem withMode_permitted {m : Mnemonic} {md : Mode} (h : permits m md = true) (s : State) (run : StepOutcome) :
    withMode m md s run = run := by
  simp [withMode, h]

theorem withMode_forbidden {m : Mnemonic} {md : Mode} (h : permits m md = false) (s : State) (run : StepOutcome) :
    withMode m md s run =
      .next (s.report (.error (errorRecord (unsupportedMode s) s))) := by
  simp [withMode, h, raise_eq]

/-- Everything the mode check can answer. -/
theorem withMode_cases (m : Mnemonic) (md : Mode) (s : State) (run : StepOutcome) :
    (permits m md = true ∧ withMode m md s run = run) ∨
    (permits m md = false ∧ withMode m md s run =
      .next (s.report (.error (errorRecord (unsupportedMode s) s)))) := by
  cases h : permits m md
  · exact .inr ⟨rfl, withMode_forbidden h s run⟩
  · exact .inl ⟨rfl, withMode_permitted h s run⟩

/-- The resolver hands the operand's value to the instruction (rule R85). -/
theorem withOperand_permitted {m : Mnemonic} {o : Operand} (h : permits m o.mode = true) (s : State)
    (run : Val → StepOutcome) : withOperand m o s run = run (operandValue s o) :=
  withMode_permitted h s _

theorem withOperand_forbidden {m : Mnemonic} {o : Operand} (h : permits m o.mode = false) (s : State)
    (run : Val → StepOutcome) :
    withOperand m o s run =
      .next (s.report (.error (errorRecord (unsupportedMode s) s))) :=
  withMode_forbidden h s _

/-- A branch in a permitted mode (rule R190). -/
theorem branchIf_permitted {m : Mnemonic} {o : Operand} (h : permits m o.mode = true) (taken : Bool) (s : State) :
    branchIf m taken o s = .next ((if taken then s.setPc (operandValue s o) else s).report .ok) := by
  simp [branchIf, withOperand_permitted h, finish_eq]

section Fetch
variable (s : State)

@[simp] theorem fetch_ccr : (fetch s).ccr = s.ccr := rfl
@[simp] theorem fetch_running : (fetch s).running = s.running := rfl
@[simp] theorem fetch_mem : (fetch s).mem = s.mem := rfl
@[simp] theorem fetch_phase : (fetch s).phase = s.phase := rfl
@[simp] theorem fetch_status : (fetch s).status = s.status := rfl
@[simp] theorem fetch_readMem (a : Val) : (fetch s).readMem a = s.readMem a := rfl

/-- The holding register takes all 32 bits of the word at the old `pc` (rules R24, R101). -/
@[simp] theorem fetch_ir : (fetch s).ir = s.readMem s.pc := by simp [fetch]

/-- `pc` advances by one modulo 2^20 (rule R101). -/
@[simp] theorem fetch_pc : (fetch s).pc = trunc20 ((s.pc.toNat : Int) + 1) := by simp [fetch]

/-- Fetch writes slots 15 and 16 and no other (rule R107). -/
theorem fetch_slot_other {j : Slot} (h15 : j ≠ slotOf pcReg) (h16 : j ≠ irSlot) : (fetch s).slot j = s.slot j := by
  simp [fetch, slot_setPc, slot_setIr, h15, h16]

theorem fetch_slot_pc : (fetch s).slot (slotOf pcReg) = zext32 (trunc20 ((s.pc.toNat : Int) + 1)) := by
  simp [fetch, slot_setPc]

theorem fetch_readReg_other {r : Reg} (h : r ≠ pcReg) : (fetch s).readReg r = s.readReg r := by
  simp [fetch, readReg_setPc, h]

/-- The address in an error's record is the address the word was fetched from (rule R211). -/
theorem errorRecord_fetch (k : ErrorKind) :
    errorRecord k (fetch s) = ⟨k, s.readMem s.pc, s.pc⟩ := by
  rw [errorRecord, fetch_ir, fetch_pc, trunc20_pred_succ]

end Fetch

section Cycle
variable {num : Numbering} {s : State} {i : Instr} {op : BitVec 5}

/-- A fetched word runs as its instruction under the numbering (rules R103, R105). -/
theorem runFetchedWith_ok (h : decodeWith num s.ir = .ok i) : runFetchedWith num s = exec i s := by
  simp [runFetchedWith, h]

/-- A fetched word whose `op` is unassigned raises InvalidOpcode (rules R103, R214). -/
theorem runFetchedWith_unassigned (h : decodeWith num s.ir = .error (.unassignedOpcode op)) :
    runFetchedWith num s = raise (.invalidOpcode op) s := by
  simp [runFetchedWith, h]

theorem runFetched_ok (h : decode s.ir = .ok i) : runFetched s = exec i s := runFetchedWith_ok h

theorem runFetched_unassigned (h : decode s.ir = .error (.unassignedOpcode op)) :
    runFetched s = raise (.invalidOpcode op) s := runFetchedWith_unassigned h

end Cycle

/-- Everything the run of a fetched word can answer: its instruction's answer, or InvalidOpcode. -/
theorem runFetchedWith_cases (num : Numbering) (s : State) :
    (∃ i, decodeWith num s.ir = .ok i ∧ runFetchedWith num s = exec i s) ∨
    (∃ op, decodeWith num s.ir = .error (.unassignedOpcode op) ∧ runFetchedWith num s = raise (.invalidOpcode op) s) := by
  cases h : decodeWith num s.ir with
  | ok i => exact .inl ⟨i, rfl, runFetchedWith_ok h⟩
  | error e =>
    obtain ⟨op⟩ := e
    exact .inr ⟨op, rfl, runFetchedWith_unassigned h⟩

@[simp] theorem fetchFault_specParams (s : State) : fetchFault specParams s = none := rfl

theorem stepWith_running_idle (num : Numbering) {s : State} (hr : s.running = true) (hp : s.phase = .idle) :
    stepWith num specParams s = runFetchedWith num (fetch s) := by
  simp [stepWith, hr, hp]

theorem step_running_idle {s : State} (hr : s.running = true) (hp : s.phase = .idle) :
    step s = runFetched (fetch s) := stepWith_running_idle opcodeOf hr hp

theorem step_halted {s : State} (hr : s.running = false) : step s = .next (s.report .halted) := by
  simp [step, stepWith, hr, haltedStep, specParams]

theorem step_out_of_order {s : State} (hr : s.running = true) (hp : s.phase ≠ .idle) :
    step s = .refused .commandOutOfOrder := by
  simp [step, stepWith, hr, hp]

/-- Everything a step that answers a next state can have done. -/
theorem step_cases {s t : State} (h : step s = .next t) :
    (s.running = false ∧ t = s.report .halted) ∨
    (s.running = true ∧ s.phase = .idle ∧ runFetched (fetch s) = .next t) := by
  cases hr : s.running
  · rw [step_halted hr, next_inj] at h
    exact .inl ⟨rfl, h.symm⟩
  · by_cases hp : s.phase = .idle
    · rw [step_running_idle hr hp] at h
      exact .inr ⟨rfl, hp, h⟩
    · rw [step_out_of_order hr hp] at h
      cases h

end Sys2Proof.Machine
end

