-- ==== Sys2Proof/Laws/PerInstr.lean ====
section
/-! SUPPORT. Lemmas for every instruction, one per constructor. `ModeTable`: the well-formedness of the syntax (the groups
of rule R75) is the machine's own mode check (the mode-code sets of rule R75). -/

/-- An instruction is well formed exactly when its opcode permits its mode (rules R75, R84, R89). -/
def Sys2Proof.Laws.ModeTable.Statement (i : Sys2Proof.Instr) : Prop :=
  Sys2Proof.Machine.permits i.mnemonic i.mode = i.wellFormed

theorem Sys2Proof.Laws.ModeTable.hlt (m : Sys2Proof.Mode) : Sys2Proof.Laws.ModeTable.Statement (.hlt m) := by
  cases m <;> rfl

theorem Sys2Proof.Laws.ModeTable.mov (ra : Sys2Proof.Reg) (o : Sys2Proof.Operand) : Sys2Proof.Laws.ModeTable.Statement (.mov ra o) := by
  cases o <;> rfl

theorem Sys2Proof.Laws.ModeTable.ldr (ra : Sys2Proof.Reg) (o : Sys2Proof.Operand) : Sys2Proof.Laws.ModeTable.Statement (.ldr ra o) := by
  cases o <;> rfl

theorem Sys2Proof.Laws.ModeTable.str (ra : Sys2Proof.Reg) (o : Sys2Proof.Operand) : Sys2Proof.Laws.ModeTable.Statement (.str ra o) := by
  cases o <;> rfl

theorem Sys2Proof.Laws.ModeTable.add (ra : Sys2Proof.Reg) (o : Sys2Proof.Operand) : Sys2Proof.Laws.ModeTable.Statement (.add ra o) := by
  cases o <;> rfl

theorem Sys2Proof.Laws.ModeTable.adc (ra : Sys2Proof.Reg) (o : Sys2Proof.Operand) : Sys2Proof.Laws.ModeTable.Statement (.adc ra o) := by
  cases o <;> rfl

theorem Sys2Proof.Laws.ModeTable.sub (ra : Sys2Proof.Reg) (o : Sys2Proof.Operand) : Sys2Proof.Laws.ModeTable.Statement (.sub ra o) := by
  cases o <;> rfl

theorem Sys2Proof.Laws.ModeTable.sbc (ra : Sys2Proof.Reg) (o : Sys2Proof.Operand) : Sys2Proof.Laws.ModeTable.Statement (.sbc ra o) := by
  cases o <;> rfl

theorem Sys2Proof.Laws.ModeTable.cmp (ra : Sys2Proof.Reg) (o : Sys2Proof.Operand) : Sys2Proof.Laws.ModeTable.Statement (.cmp ra o) := by
  cases o <;> rfl

theorem Sys2Proof.Laws.ModeTable.lsl (ra : Sys2Proof.Reg) (o : Sys2Proof.Operand) : Sys2Proof.Laws.ModeTable.Statement (.lsl ra o) := by
  cases o <;> rfl

theorem Sys2Proof.Laws.ModeTable.lsr (ra : Sys2Proof.Reg) (o : Sys2Proof.Operand) : Sys2Proof.Laws.ModeTable.Statement (.lsr ra o) := by
  cases o <;> rfl

theorem Sys2Proof.Laws.ModeTable.asr (ra : Sys2Proof.Reg) (o : Sys2Proof.Operand) : Sys2Proof.Laws.ModeTable.Statement (.asr ra o) := by
  cases o <;> rfl

theorem Sys2Proof.Laws.ModeTable.rol (ra : Sys2Proof.Reg) (o : Sys2Proof.Operand) : Sys2Proof.Laws.ModeTable.Statement (.rol ra o) := by
  cases o <;> rfl

theorem Sys2Proof.Laws.ModeTable.ror (ra : Sys2Proof.Reg) (o : Sys2Proof.Operand) : Sys2Proof.Laws.ModeTable.Statement (.ror ra o) := by
  cases o <;> rfl

theorem Sys2Proof.Laws.ModeTable.and (ra : Sys2Proof.Reg) (o : Sys2Proof.Operand) : Sys2Proof.Laws.ModeTable.Statement (.and ra o) := by
  cases o <;> rfl

theorem Sys2Proof.Laws.ModeTable.orr (ra : Sys2Proof.Reg) (o : Sys2Proof.Operand) : Sys2Proof.Laws.ModeTable.Statement (.orr ra o) := by
  cases o <;> rfl

theorem Sys2Proof.Laws.ModeTable.eor (ra : Sys2Proof.Reg) (o : Sys2Proof.Operand) : Sys2Proof.Laws.ModeTable.Statement (.eor ra o) := by
  cases o <;> rfl

theorem Sys2Proof.Laws.ModeTable.not (ra : Sys2Proof.Reg) (m : Sys2Proof.Mode) : Sys2Proof.Laws.ModeTable.Statement (.not ra m) := by
  cases m <;> rfl

theorem Sys2Proof.Laws.ModeTable.jmp (o : Sys2Proof.Operand) : Sys2Proof.Laws.ModeTable.Statement (.jmp o) := by
  cases o <;> rfl

theorem Sys2Proof.Laws.ModeTable.bcc (o : Sys2Proof.Operand) : Sys2Proof.Laws.ModeTable.Statement (.bcc o) := by
  cases o <;> rfl

theorem Sys2Proof.Laws.ModeTable.bcs (o : Sys2Proof.Operand) : Sys2Proof.Laws.ModeTable.Statement (.bcs o) := by
  cases o <;> rfl

theorem Sys2Proof.Laws.ModeTable.bpl (o : Sys2Proof.Operand) : Sys2Proof.Laws.ModeTable.Statement (.bpl o) := by
  cases o <;> rfl

theorem Sys2Proof.Laws.ModeTable.bmi (o : Sys2Proof.Operand) : Sys2Proof.Laws.ModeTable.Statement (.bmi o) := by
  cases o <;> rfl

theorem Sys2Proof.Laws.ModeTable.bne (o : Sys2Proof.Operand) : Sys2Proof.Laws.ModeTable.Statement (.bne o) := by
  cases o <;> rfl

theorem Sys2Proof.Laws.ModeTable.beq (o : Sys2Proof.Operand) : Sys2Proof.Laws.ModeTable.Statement (.beq o) := by
  cases o <;> rfl

theorem Sys2Proof.Laws.ModeTable.bvc (o : Sys2Proof.Operand) : Sys2Proof.Laws.ModeTable.Statement (.bvc o) := by
  cases o <;> rfl

theorem Sys2Proof.Laws.ModeTable.bvs (o : Sys2Proof.Operand) : Sys2Proof.Laws.ModeTable.Statement (.bvs o) := by
  cases o <;> rfl
end

