-- ==== Sys2Proof/Laws/Exec.lean ====
section
/-! SUPPORT. Everything the execute phase can do, said once: `exec` always answers a next state, and that state is the old
one with one of six updates and a status (rules R25, R105, R107). -/

namespace Sys2Proof.Machine

/-- The states an instruction's own writes can make of `s`, before its status is reported. -/
inductive Writes (s : State) : State → Prop where
  | nothing : Writes s s
  | register (r : Reg) (v : Val) : Writes s (s.writeReg r v)
  | flags (f : Flags) : Writes s (s.setFlags f)
  | flagsAndRegister (f : Flags) (r : Reg) (v : Val) : Writes s ((s.setFlags f).writeReg r v)
  | word (a : Val) (w : Word) : Writes s (s.writeMem a w)
  | halted : Writes s s.halt

/-- What a meaning can answer: an `ok` after its writes, or the error of rule R215 after none. -/
def Answers (s : State) (out : StepOutcome) : Prop :=
  (∃ u, Writes s u ∧ out = .next (u.report .ok)) ∨
  out = .next (s.report (.error (errorRecord (unsupportedMode s) s)))

theorem withMode_answers {m : Mnemonic} {md : Mode} {s : State} {run : StepOutcome} (h : Answers s run) :
    Answers s (withMode m md s run) := by
  rcases withMode_cases m md s run with ⟨-, e⟩ | ⟨-, e⟩
  · rw [e]; exact h
  · exact .inr e

theorem withOperand_answers {m : Mnemonic} {o : Operand} {s : State} {run : Val → StepOutcome}
    (h : ∀ b, Answers s (run b)) : Answers s (withOperand m o s run) :=
  withMode_answers (h _)

theorem finish_answers {s u : State} (h : Writes s u) : Answers s (finish u) := .inl ⟨u, h, rfl⟩

theorem commitAlu_answers (ra : Reg) (r : AluResult) (s : State) : Answers s (commitAlu ra r s) :=
  finish_answers (.flagsAndRegister r.flags ra r.res)

theorem branchIf_answers (m : Mnemonic) (taken : Bool) (o : Operand) (s : State) : Answers s (branchIf m taken o s) := by
  refine withOperand_answers fun b => finish_answers ?_
  cases taken
  · exact .nothing
  · exact .register pcReg b

/-- The execute phase always answers, and only in these ways. -/
theorem exec_answers (i : Instr) (s : State) : Answers s (exec i s) := by
  cases i with
  | hlt m =>
    simp only [exec, execHlt]
    exact withMode_answers (finish_answers .halted)
  | mov ra o =>
    simp only [exec, execMov]
    exact withOperand_answers fun b => finish_answers (.register ra b)
  | ldr ra o =>
    simp only [exec, execLdr]
    exact withOperand_answers fun b => finish_answers (.register ra _)
  | str ra o =>
    simp only [exec, execStr]
    exact withOperand_answers fun b => finish_answers (.word b _)
  | add ra o =>
    simp only [exec, execAdd]
    exact withOperand_answers fun b => commitAlu_answers ra _ s
  | adc ra o =>
    simp only [exec, execAdc]
    exact withOperand_answers fun b => commitAlu_answers ra _ s
  | sub ra o =>
    simp only [exec, execSub]
    exact withOperand_answers fun b => commitAlu_answers ra _ s
  | sbc ra o =>
    simp only [exec, execSbc]
    exact withOperand_answers fun b => commitAlu_answers ra _ s
  | cmp ra o =>
    simp only [exec, execCmp]
    exact withOperand_answers fun b => finish_answers (.flags _)
  | lsl ra o =>
    simp only [exec, execLsl]
    exact withOperand_answers fun b => commitAlu_answers ra _ s
  | lsr ra o =>
    simp only [exec, execLsr]
    exact withOperand_answers fun b => commitAlu_answers ra _ s
  | asr ra o =>
    simp only [exec, execAsr]
    exact withOperand_answers fun b => commitAlu_answers ra _ s
  | rol ra o =>
    simp only [exec, execRol]
    refine withOperand_answers fun b => ?_
    split
    · exact finish_answers (.flags _)
    · exact commitAlu_answers ra _ s
  | ror ra o =>
    simp only [exec, execRor]
    refine withOperand_answers fun b => ?_
    split
    · exact finish_answers (.flags _)
    · exact commitAlu_answers ra _ s
  | and ra o =>
    simp only [exec, execAnd]
    exact withOperand_answers fun b => commitAlu_answers ra _ s
  | orr ra o =>
    simp only [exec, execOrr]
    exact withOperand_answers fun b => commitAlu_answers ra _ s
  | eor ra o =>
    simp only [exec, execEor]
    exact withOperand_answers fun b => commitAlu_answers ra _ s
  | not ra m =>
    simp only [exec, execNot]
    exact withMode_answers (commitAlu_answers ra _ s)
  | jmp o =>
    simp only [exec, execJmp]
    exact withOperand_answers fun b => finish_answers (.register pcReg b)
  | bcc o =>
    simp only [exec, execBcc]
    exact branchIf_answers _ _ o s
  | bcs o =>
    simp only [exec, execBcs]
    exact branchIf_answers _ _ o s
  | bpl o =>
    simp only [exec, execBpl]
    exact branchIf_answers _ _ o s
  | bmi o =>
    simp only [exec, execBmi]
    exact branchIf_answers _ _ o s
  | bne o =>
    simp only [exec, execBne]
    exact branchIf_answers _ _ o s
  | beq o =>
    simp only [exec, execBeq]
    exact branchIf_answers _ _ o s
  | bvc o =>
    simp only [exec, execBvc]
    exact branchIf_answers _ _ o s
  | bvs o =>
    simp only [exec, execBvs]
    exact branchIf_answers _ _ o s

end Sys2Proof.Machine
end

