-- ==== Sys2Proof/Laws/Flags.lean ====
section
/-! SUPPORT. What each computation of the arithmetic and logic unit gives, said once in the rules' own arithmetic. -/

namespace Sys2Proof.Machine

theorem zeroFlag_iff (r : Val) : zeroFlag r = true ↔ r.toNat = 0 := by
  simp [zeroFlag, BitVec.toNat_eq]

theorem znOf_mk {c v : Bool} (r : Val) : ZNOf ⟨c, zeroFlag r, sign r, v⟩ r := ⟨zeroFlag_iff r, rfl⟩

/-- Bit `i` of a value as arithmetic. -/
theorem bitOf_eq (v : Val) (i : Nat) : bitOf v i = decide (v.toNat / 2 ^ i % 2 = 1) := by
  simp [bitOf, BitVec.getLsbD, Nat.testBit_eq_decide_div_mod_eq]

theorem getLsbD_eq (v : Val) (i : Nat) : v.getLsbD i = decide (v.toNat / 2 ^ i % 2 = 1) := bitOf_eq v i

/-- The addition family at the spec's parameters is rule R140. -/
theorem addResult_effect (a b : Val) (cin : Bool) :
    AdditionEffect a b cin.toNat (addResult specParams a b cin).res (addResult specParams a b cin).flags := by
  have hres : (addResult specParams a b cin).res = trunc20 ((a.toNat + b.toNat + cin.toNat : Nat) : Int) := by
    simp [addResult]
  refine ⟨?_, ?_, ⟨zeroFlag_iff _, rfl⟩, ?_⟩
  · rw [hres, trunc20_natCast_toNat]
  · simp only [addResult, decide_eq_true_eq]
    omega
  · simp only [addResult, specParams]
    split
    · rename_i h
      simp only [Bool.and_eq_true, zeroFlag, decide_eq_true_eq] at h
      obtain ⟨⟨ha, hb⟩, hz⟩ := h
      rw [hz]
      simp only [sign] at ha hb
      simp only [ha, hb, BitVec.getLsbD_zero]
      simp
    · simp [sign]

/-- The subtraction family at the spec's parameters is rule R141. -/
theorem subResult_effect (old : Flags) (a b : Val) (bin : Bool) :
    SubtractionEffect a b bin.toNat (subResult specParams old a b bin).res (subResult specParams old a b bin).flags := by
  refine ⟨trunc20_toNat _, ?_, ⟨zeroFlag_iff _, rfl⟩, ?_⟩
  · simp only [subResult, decide_eq_true_eq]
    omega
  · simp [subResult, sign]

/-- The flags of a shift at the spec's parameters (rules R160, R164). -/
theorem shiftFlags_effect (old : Flags) {a res : Val} {n : Nat} {carry out : Bool} (hz : n = 0 → res = a)
    (hc : n ≠ 0 → carry = out) : ShiftFlags old a res n out (shiftFlags specParams old a res n carry) := by
  refine ⟨fun h => ?_, fun h => ?_, ⟨zeroFlag_iff _, rfl⟩, ?_⟩
  · simp [shiftFlags, h]
  · simp [shiftFlags, h, hc h]
  · by_cases h : n = 0
    · simp [shiftFlags, h, specParams, hz h]
    · simp [shiftFlags, h, sign]

/-- LSL (rule R161): the value times 2^n, modulo 2^20; the bit shifted out is bit 20 of the untruncated product. -/
theorem lslResult_effect (old : Flags) (a b : Val) :
    (lslResult specParams old a b).res.toNat = a.toNat * 2 ^ b.toNat % 2 ^ 20 ∧
    ShiftFlags old a (lslResult specParams old a b).res b.toNat (decide (a.toNat * 2 ^ b.toNat / 2 ^ 20 % 2 = 1))
      (lslResult specParams old a b).flags := by
  have ha := a.isLt
  constructor
  · simp only [lslResult]
    by_cases h0 : b.toNat = 0
    · simp only [h0, if_pos, Nat.pow_zero, Nat.mul_one]
      omega
    · by_cases h1 : b.toNat < 20
      · simp only [h0, h1, if_false, if_true, trunc20_natCast_toNat, Nat.shiftLeft_eq]
      · obtain ⟨k, hk⟩ : ∃ k, b.toNat = 20 + k := ⟨b.toNat - 20, by omega⟩
        simp only [h0, h1, if_false]
        rw [hk, Nat.pow_add, Nat.mul_left_comm, Nat.mul_mod_right]
        rfl
  · refine shiftFlags_effect old (fun h => by simp [lslResult, h]) (fun h => ?_)
    by_cases h1 : b.toNat < 20
    · simp only [h1, if_true, bitOf_eq]
      have hs : (2 : Nat) ^ 20 = 2 ^ b.toNat * 2 ^ (20 - b.toNat) := by rw [← Nat.pow_add]; congr 1; omega
      rw [hs, Nat.mul_comm a.toNat, Nat.mul_div_mul_left _ _ (Nat.two_pow_pos _)]
    · by_cases h2 : b.toNat = 20
      · simp only [h2, bitOf_eq]
        norm_num
      · obtain ⟨k, hk⟩ : ∃ k, b.toNat = 20 + (k + 1) := ⟨b.toNat - 21, by omega⟩
        simp only [h1, h2, if_false, specParams]
        rw [hk, Nat.pow_add, Nat.mul_left_comm, Nat.mul_div_cancel_left _ (Nat.two_pow_pos _), Nat.pow_succ,
          ← Nat.mul_assoc, Nat.mul_mod_left]
        rfl

/-- A power of two beyond a bound. -/
theorem pow_le_of_le {m n : Nat} (h : m ≤ n) : 2 ^ m ≤ 2 ^ n := Nat.pow_le_pow_right (by decide) h

/-- LSR (rule R162): the value divided by 2^n; the bit shifted out is bit `n - 1` of the value. -/
theorem lsrResult_effect (old : Flags) (a b : Val) :
    (lsrResult specParams old a b).res.toNat = a.toNat / 2 ^ b.toNat ∧
    ShiftFlags old a (lsrResult specParams old a b).res b.toNat (decide (a.toNat / 2 ^ (b.toNat - 1) % 2 = 1))
      (lsrResult specParams old a b).flags := by
  have ha := a.isLt
  constructor
  · simp only [lsrResult]
    by_cases h0 : b.toNat = 0
    · simp [h0]
    · by_cases h1 : b.toNat ≤ 20
      · simp only [h0, h1, if_false, if_true, trunc20_natCast_toNat, Nat.shiftRight_eq_div_pow]
        exact Nat.mod_eq_of_lt (lt_of_le_of_lt (Nat.div_le_self _ _) ha)
      · simp only [h0, h1, if_false]
        have := pow_le_of_le (show 20 ≤ b.toNat by omega)
        rw [Nat.div_eq_of_lt (by omega)]
        rfl
  · refine shiftFlags_effect old (fun h => by simp [lsrResult, h]) (fun h => ?_)
    by_cases h1 : b.toNat ≤ 20
    · simp only [h1, if_true, bitOf_eq]
    · simp only [h1, if_false]
      have := pow_le_of_le (show 20 ≤ b.toNat - 1 by omega)
      rw [Nat.div_eq_of_lt (by omega)]
      rfl

theorem signedVal_cases (a : Val) :
    (sign a = true ∧ 2 ^ 19 ≤ a.toNat ∧ signedVal a = (a.toNat : Int) - 2 ^ 20) ∨
    (sign a = false ∧ a.toNat < 2 ^ 19 ∧ signedVal a = a.toNat) := by
  cases h : sign a
  · exact .inr ⟨rfl, by simpa [sign_eq_decide] using h, by simp [signedVal, h]⟩
  · exact .inl ⟨rfl, by simpa [sign_eq_decide] using h, by simp [signedVal, h]⟩

/-- A floor shift of a 20-bit signed value by 20 or more leaves the sign alone. -/
theorem signedVal_div_far (a : Val) {n : Nat} (h : 20 ≤ n) :
    signedVal a / 2 ^ n = if sign a then -1 else 0 := by
  have ha := a.isLt
  have hp : (2 ^ 20 : Int) ≤ 2 ^ n := by exact_mod_cast pow_le_of_le h
  rcases signedVal_cases a with ⟨hs, hge, hv⟩ | ⟨hs, hlt, hv⟩
  · rw [hs, hv, if_pos rfl]
    rw [Int.ediv_eq_iff_of_pos (by omega)]
    constructor <;> omega
  · rw [hs, hv, if_neg (by simp)]
    exact Int.ediv_eq_zero_of_lt (by omega) (by omega)

/-- ASR (rule R163): the signed value divided by 2^n, rounding down; the bit shifted out is bit `n - 1` of the
sign-extended value. -/
theorem asrResult_effect (old : Flags) (a b : Val) :
    ((asrResult specParams old a b).res.toNat : Int) = signedVal a / 2 ^ b.toNat % 2 ^ 20 ∧
    ShiftFlags old a (asrResult specParams old a b).res b.toNat (decide (signedVal a / 2 ^ (b.toNat - 1) % 2 = 1))
      (asrResult specParams old a b).flags := by
  have ha := a.isLt
  constructor
  · simp only [asrResult]
    by_cases h0 : b.toNat = 0
    · simp only [h0, if_true]
      rcases signedVal_cases a with ⟨hs, hge, hv⟩ | ⟨hs, hlt, hv⟩ <;> rw [hv] <;> norm_num <;> omega
    · by_cases h1 : b.toNat < 20
      · simp only [h0, h1, if_false, if_true, trunc20_toNat, Int.shiftRight_eq_div_pow]
        norm_cast
      · simp only [h0, h1, if_false, specParams, signCopies]
        rw [signedVal_div_far a (by omega)]
        cases sign a <;> rfl
  · refine shiftFlags_effect old (fun h => by simp [asrResult, h]) (fun h => ?_)
    by_cases h1 : b.toNat ≤ 20
    · simp only [h1, if_true, bitOf_eq]
      have hd : (2 ^ 20 : Nat) = 2 ^ (b.toNat - 1) * (2 * 2 ^ (20 - b.toNat)) := by
        rw [← Nat.pow_succ', ← Nat.pow_add]; congr 1; omega
      rcases signedVal_cases a with ⟨hs, hge, hv⟩ | ⟨hs, hlt, hv⟩
      · have e : signedVal a / 2 ^ (b.toNat - 1) =
            ((a.toNat / 2 ^ (b.toNat - 1) : Nat) : Int) - ((2 * 2 ^ (20 - b.toNat) : Nat) : Int) := by
          have hz : ((2 : Int) ^ 20) = (2 ^ (b.toNat - 1) : Int) * ((2 * 2 ^ (20 - b.toNat) : Nat) : Int) := by
            exact_mod_cast hd
          rw [hv, hz, Int.sub_mul_ediv_left _ _ (by positivity)]
          norm_cast
        rw [e]
        congr 1
        apply propext
        omega
      · rw [hv]
        congr 1
        apply propext
        norm_cast
    · simp only [h1, if_false]
      rw [signedVal_div_far a (by omega)]
      cases sign a <;> rfl

theorem getLsbD_trunc20_nat (n i : Nat) : (trunc20 (n : Int)).getLsbD i = (decide (i < 20) && n.testBit i) := by
  rw [trunc20_natCast, BitVec.getLsbD_ofNat]

theorem testBit_toNat_of_le (a : Val) {i : Nat} (h : 20 ≤ i) : a.toNat.testBit i = false :=
  Nat.testBit_lt_two_pow (lt_of_lt_of_le a.isLt (pow_le_of_le h))

theorem rotateAmount_range (n : Nat) : 1 ≤ rotateAmount n ∧ rotateAmount n ≤ 20 := by
  unfold rotateAmount; omega

/-- The normalised amount moves a bit to the same place as the amount itself (rule R165). -/
theorem rotateAmount_mod {n : Nat} (h : n ≠ 0) : rotateAmount n % 20 = n % 20 := by
  unfold rotateAmount; omega

/-- ROL's rotation: bit `j` moves to bit `(j + k) mod 20` (rule R166). -/
theorem getLsbD_rotateLeft (a : Val) {k j : Nat} (h1 : 1 ≤ k) (h20 : k ≤ 20) (hj : j < 20) :
    (rotateLeft a k).getLsbD ((j + k) % 20) = a.getLsbD j := by
  rw [rotateLeft, getLsbD_trunc20_nat, Nat.testBit_or, Nat.testBit_shiftLeft, Nat.testBit_shiftRight]
  by_cases h : j + k < 20
  · rw [Nat.mod_eq_of_lt h, testBit_toNat_of_le a (show 20 ≤ 20 - k + (j + k) by omega), Nat.add_sub_cancel]
    simp [h, BitVec.getLsbD]
  · have e : (j + k) % 20 = j + k - 20 := by omega
    rw [e, show 20 - k + (j + k - 20) = j by omega]
    simp [show ¬ k ≤ j + k - 20 by omega, show j + k - 20 < 20 by omega, BitVec.getLsbD]

/-- ROR's rotation: bit `(j + k) mod 20` moves to bit `j` (rule R167). -/
theorem getLsbD_rotateRight (a : Val) {k j : Nat} (h1 : 1 ≤ k) (h20 : k ≤ 20) (hj : j < 20) :
    (rotateRight a k).getLsbD j = a.getLsbD ((j + k) % 20) := by
  rw [rotateRight, getLsbD_trunc20_nat, Nat.testBit_or, Nat.testBit_shiftLeft, Nat.testBit_shiftRight]
  by_cases h : j + k < 20
  · rw [Nat.mod_eq_of_lt h]
    simp [hj, show ¬ 20 - k ≤ j by omega, BitVec.getLsbD, Nat.add_comm]
  · have e : (j + k) % 20 = j - (20 - k) := by omega
    rw [e, testBit_toNat_of_le a (show 20 ≤ k + j by omega)]
    simp [hj, show 20 - k ≤ j by omega, BitVec.getLsbD]

theorem rotateFlags_effect (old : Flags) (a res : Val) {n : Nat} (h : n ≠ 0) (carry : Bool) :
    RotateFlags old a res n carry (rotateFlags a res carry) := by
  refine ⟨fun h0 => absurd h0 h, fun _ => rfl, fun _ => ?_, ⟨zeroFlag_iff _, rfl⟩⟩
  simp [rotateFlags, sign]

/-- ROL by a non-zero amount (rules R165, R166). -/
theorem rolResult_effect (old : Flags) (a b : Val) (h : b.toNat ≠ 0) :
    (∀ j < 20, (rolResult specParams a b).res.getLsbD ((j + b.toNat) % 20) = a.getLsbD j) ∧
    RotateFlags old a (rolResult specParams a b).res b.toNat ((rolResult specParams a b).res.getLsbD 0)
      (rolResult specParams a b).flags := by
  obtain ⟨h1, h2⟩ := rotateAmount_range b.toNat
  refine ⟨fun j hj => ?_, rotateFlags_effect old a _ h _⟩
  have e : (j + b.toNat) % 20 = (j + rotateAmount b.toNat) % 20 := by
    have := rotateAmount_mod h
    omega
  rw [e]
  exact getLsbD_rotateLeft a h1 h2 hj

/-- ROR by a non-zero amount (rules R165, R167). -/
theorem rorResult_effect (old : Flags) (a b : Val) (h : b.toNat ≠ 0) :
    (∀ j < 20, (rorResult specParams a b).res.getLsbD j = a.getLsbD ((j + b.toNat) % 20)) ∧
    RotateFlags old a (rorResult specParams a b).res b.toNat ((rorResult specParams a b).res.getLsbD 19)
      (rorResult specParams a b).flags := by
  obtain ⟨h1, h2⟩ := rotateAmount_range b.toNat
  refine ⟨fun j hj => ?_, rotateFlags_effect old a _ h _⟩
  have e : (j + b.toNat) % 20 = (j + rotateAmount b.toNat) % 20 := by
    have := rotateAmount_mod h
    omega
  rw [e]
  exact getLsbD_rotateRight a h1 h2 hj

/-- The flags of a rotate by 0 (rule R168). -/
theorem rotateZeroFlags_effect (old : Flags) (a : Val) (out : Bool) :
    RotateFlags old a a 0 out (rotateZeroFlags specParams old a) :=
  ⟨fun _ => ⟨rfl, rfl⟩, fun h => absurd rfl h, fun h => absurd rfl h, ⟨zeroFlag_iff _, rfl⟩⟩

end Sys2Proof.Machine
end

