-- ==== Sys2Proof/Laws/Meanings.lean ====
section
/-! SUPPORT. One equation per instruction: what `exec` answers in a permitted mode, so that no later proof unfolds a
meaning. -/

namespace Sys2Proof.Machine

section Meanings
variable (ra : Reg) (o : Operand) (s : State)

theorem exec_mov (h : o.isValue = true) : exec (.mov ra o) s =
    .next ((s.writeReg ra (operandValue s o)).report .ok) := by
  simp only [exec, execMov]
  exact withOperand_permitted ((Laws.ModeTable.mov ra o).trans h) s _

theorem exec_ldr (h : o.isAddress = true) : exec (.ldr ra o) s =
    .next ((s.writeReg ra (low20 (s.readMem (operandValue s o)))).report .ok) := by
  simp only [exec, execLdr]
  exact withOperand_permitted ((Laws.ModeTable.ldr ra o).trans h) s _

theorem exec_str (h : o.isAddress = true) : exec (.str ra o) s =
    .next ((s.writeMem (operandValue s o) (zext32 (s.readReg ra))).report .ok) := by
  simp only [exec, execStr]
  exact withOperand_permitted ((Laws.ModeTable.str ra o).trans h) s _

theorem exec_add (h : o.isValue = true) : exec (.add ra o) s =
    commitAlu ra (addResult specParams (s.readReg ra) (operandValue s o) false) s := by
  simp only [exec, execAdd]
  exact withOperand_permitted ((Laws.ModeTable.add ra o).trans h) s _

theorem exec_adc (h : o.isValue = true) : exec (.adc ra o) s =
    commitAlu ra (addResult specParams (s.readReg ra) (operandValue s o) s.ccr.c) s := by
  simp only [exec, execAdc]
  exact withOperand_permitted ((Laws.ModeTable.adc ra o).trans h) s _

theorem exec_sub (h : o.isValue = true) : exec (.sub ra o) s =
    commitAlu ra (subResult specParams s.ccr (s.readReg ra) (operandValue s o) false) s := by
  simp only [exec, execSub]
  exact withOperand_permitted ((Laws.ModeTable.sub ra o).trans h) s _

theorem exec_sbc (h : o.isValue = true) : exec (.sbc ra o) s =
    commitAlu ra (subResult specParams s.ccr (s.readReg ra) (operandValue s o) (!s.ccr.c)) s := by
  simp only [exec, execSbc]
  exact withOperand_permitted ((Laws.ModeTable.sbc ra o).trans h) s _

theorem exec_cmp (h : o.isValue = true) : exec (.cmp ra o) s =
    .next ((s.setFlags (subResult specParams s.ccr (s.readReg ra) (operandValue s o) false).flags).report .ok) := by
  simp only [exec, execCmp]
  exact withOperand_permitted ((Laws.ModeTable.cmp ra o).trans h) s _

theorem exec_lsl (h : o.isValue = true) : exec (.lsl ra o) s =
    commitAlu ra (lslResult specParams s.ccr (s.readReg ra) (operandValue s o)) s := by
  simp only [exec, execLsl]
  exact withOperand_permitted ((Laws.ModeTable.lsl ra o).trans h) s _

theorem exec_lsr (h : o.isValue = true) : exec (.lsr ra o) s =
    commitAlu ra (lsrResult specParams s.ccr (s.readReg ra) (operandValue s o)) s := by
  simp only [exec, execLsr]
  exact withOperand_permitted ((Laws.ModeTable.lsr ra o).trans h) s _

theorem exec_asr (h : o.isValue = true) : exec (.asr ra o) s =
    commitAlu ra (asrResult specParams s.ccr (s.readReg ra) (operandValue s o)) s := by
  simp only [exec, execAsr]
  exact withOperand_permitted ((Laws.ModeTable.asr ra o).trans h) s _

theorem exec_rol_zero (h : o.isValue = true) (hb : operandValue s o = 0#20) : exec (.rol ra o) s =
    .next ((s.setFlags (rotateZeroFlags specParams s.ccr (s.readReg ra))).report .ok) := by
  simp only [exec, execRol]
  rw [withOperand_permitted (m := .rol) ((Laws.ModeTable.rol ra o).trans h)]
  rw [if_pos hb, finish_eq]

theorem exec_rol_nonzero (h : o.isValue = true) (hb : operandValue s o ≠ 0#20) : exec (.rol ra o) s =
    commitAlu ra (rolResult specParams (s.readReg ra) (operandValue s o)) s := by
  simp only [exec, execRol]
  rw [withOperand_permitted (m := .rol) ((Laws.ModeTable.rol ra o).trans h)]
  rw [if_neg hb]

theorem exec_ror_zero (h : o.isValue = true) (hb : operandValue s o = 0#20) : exec (.ror ra o) s =
    .next ((s.setFlags (rotateZeroFlags specParams s.ccr (s.readReg ra))).report .ok) := by
  simp only [exec, execRor]
  rw [withOperand_permitted (m := .ror) ((Laws.ModeTable.ror ra o).trans h)]
  rw [if_pos hb, finish_eq]

theorem exec_ror_nonzero (h : o.isValue = true) (hb : operandValue s o ≠ 0#20) : exec (.ror ra o) s =
    commitAlu ra (rorResult specParams (s.readReg ra) (operandValue s o)) s := by
  simp only [exec, execRor]
  rw [withOperand_permitted (m := .ror) ((Laws.ModeTable.ror ra o).trans h)]
  rw [if_neg hb]

theorem exec_and (h : o.isValue = true) : exec (.and ra o) s =
    commitAlu ra (logicResult s.ccr (s.readReg ra &&& operandValue s o)) s := by
  simp only [exec, execAnd]
  exact withOperand_permitted ((Laws.ModeTable.and ra o).trans h) s _

theorem exec_orr (h : o.isValue = true) : exec (.orr ra o) s =
    commitAlu ra (logicResult s.ccr (s.readReg ra ||| operandValue s o)) s := by
  simp only [exec, execOrr]
  exact withOperand_permitted ((Laws.ModeTable.orr ra o).trans h) s _

theorem exec_eor (h : o.isValue = true) : exec (.eor ra o) s =
    commitAlu ra (logicResult s.ccr (s.readReg ra ^^^ operandValue s o)) s := by
  simp only [exec, execEor]
  exact withOperand_permitted ((Laws.ModeTable.eor ra o).trans h) s _

theorem exec_not : exec (.not ra .immediate) s =
    commitAlu ra (logicResult s.ccr (s.readReg ra ^^^ 0xFFFFF#20)) s := rfl

theorem exec_hlt : exec (.hlt .immediate) s = .next (s.halt.report .ok) := rfl

theorem exec_jmp (h : o.isAddress = true) : exec (.jmp o) s = .next ((s.setPc (operandValue s o)).report .ok) := by
  simp only [exec, execJmp]
  exact withOperand_permitted ((Laws.ModeTable.jmp o).trans h) s _

theorem exec_bcc (h : o.isAddress = true) : exec (.bcc o) s =
    .next ((if !s.ccr.c then s.setPc (operandValue s o) else s).report .ok) := by
  simp only [exec, execBcc]
  exact branchIf_permitted ((Laws.ModeTable.bcc o).trans h) _ s

theorem exec_bcs (h : o.isAddress = true) : exec (.bcs o) s =
    .next ((if s.ccr.c then s.setPc (operandValue s o) else s).report .ok) := by
  simp only [exec, execBcs]
  exact branchIf_permitted ((Laws.ModeTable.bcs o).trans h) _ s

theorem exec_bpl (h : o.isAddress = true) : exec (.bpl o) s =
    .next ((if !s.ccr.n then s.setPc (operandValue s o) else s).report .ok) := by
  simp only [exec, execBpl]
  exact branchIf_permitted ((Laws.ModeTable.bpl o).trans h) _ s

theorem exec_bmi (h : o.isAddress = true) : exec (.bmi o) s =
    .next ((if s.ccr.n then s.setPc (operandValue s o) else s).report .ok) := by
  simp only [exec, execBmi]
  exact branchIf_permitted ((Laws.ModeTable.bmi o).trans h) _ s

theorem exec_bne (h : o.isAddress = true) : exec (.bne o) s =
    .next ((if !s.ccr.z then s.setPc (operandValue s o) else s).report .ok) := by
  simp only [exec, execBne]
  exact branchIf_permitted ((Laws.ModeTable.bne o).trans h) _ s

theorem exec_beq (h : o.isAddress = true) : exec (.beq o) s =
    .next ((if s.ccr.z then s.setPc (operandValue s o) else s).report .ok) := by
  simp only [exec, execBeq]
  exact branchIf_permitted ((Laws.ModeTable.beq o).trans h) _ s

theorem exec_bvc (h : o.isAddress = true) : exec (.bvc o) s =
    .next ((if !s.ccr.v then s.setPc (operandValue s o) else s).report .ok) := by
  simp only [exec, execBvc]
  exact branchIf_permitted ((Laws.ModeTable.bvc o).trans h) _ s

theorem exec_bvs (h : o.isAddress = true) : exec (.bvs o) s =
    .next ((if s.ccr.v then s.setPc (operandValue s o) else s).report .ok) := by
  simp only [exec, execBvs]
  exact branchIf_permitted ((Laws.ModeTable.bvs o).trans h) _ s

end Meanings

end Sys2Proof.Machine
end

