-- ==== Sys2Proof/Laws/Run.lean ====
section
/-! SUPPORT. Runs of the machine (`Host.Core.run`), stated on the model's own types: one more step, what a run from a halted
state answers, and that a run has one answer. -/

namespace Sys2Proof.Machine

theorem core_run_next (M : Host.Core) {k : Nat} {s t : M.State} (h : M.step s = .next t) : M.run (k + 1) s = M.run k t := by
  simp only [Host.Core.run, h]

/-- A run of no step answers its own state. -/
theorem run_zero (s : State) : Sys2Proof.core.run 0 s = .next s := rfl

/-- A run whose first step answers `t` goes on from `t`. -/
theorem run_succ {k : Nat} {s t : State} (h : step s = .next t) :
    Sys2Proof.core.run (k + 1) s = Sys2Proof.core.run k t :=
  core_run_next Sys2Proof.core h

/-- A run has one answer. -/
theorem run_unique {k : Nat} {s t u : State} (ht : Sys2Proof.core.run k s = .next t)
    (hu : Sys2Proof.core.run k s = .next u) : t = u := by
  have h : (Host.Outcome.next t : Host.Outcome State Fault Refusal) = .next u := ht.symm.trans hu
  exact next_inj.mp h

/-- From a halted state every run of at least one step only reports `halted` (rule R109). -/
theorem run_of_halted {s : State} (h : s.running = false) (k : Nat) :
    Sys2Proof.core.run (k + 1) s = .next (s.report .halted) := by
  induction k generalizing s with
  | zero => exact (run_succ (step_halted h)).trans (run_zero _)
  | succ k ih => exact (run_succ (step_halted h)).trans (ih (s := s.report .halted) h)

end Sys2Proof.Machine
end

