-- ==== Sys2Proof/Tests/Slice0.lean ====
section
/-! SUPPORT. Tests of the model. Every expected value is the spec's: a vector of spec/95_test_vectors.md (named by its
id), a word written out from rule R91 or a rule's example. After them, for every statement with hypotheses, a concrete
state and operands that meet them, one for each clause at a boundary value. -/

namespace Sys2Proof.Tests

open Sys2Proof Sys2Proof.Machine

/-! Well-formedness (rule R75): one ill-formed and one well-formed term for each check. -/

theorem test_implicit_group_refuses_register_mode : (Instr.hlt .register).wellFormed = false := by decide
theorem test_implicit_group_takes_mode_00 : (Instr.not 1 .immediate).wellFormed = true := by decide
theorem test_value_group_refuses_an_address : (Instr.mov 1 (.direct 0x00010#20)).wellFormed = false := by decide
theorem test_value_group_takes_a_register : (Instr.cmp 1 (.register 2)).wellFormed = true := by decide
theorem test_address_group_refuses_a_value : (Instr.jmp (.immediate 0x00100#20)).wellFormed = false := by decide
theorem test_address_group_refuses_a_register : (Instr.str 1 (.register 2)).wellFormed = false := by decide
theorem test_address_group_takes_an_indirect_address : (Instr.ldr 1 (.indirect 2)).wellFormed = true := by decide

/-! Decoding: for every constructor a word of spec/95_test_vectors.md, or of rule R91's formula. -/

/-- H-11. -/
theorem test_decode_hlt : decode 0x00FFFFFF#32 = .ok (.hlt .immediate) := by decide
/-- H-10. -/
theorem test_decode_hlt_forbidden_mode : decode 0x06000000#32 = .ok (.hlt .indirect) := by decide
/-- M-7. -/
theorem test_decode_mov : decode 0x080F0005#32 = .ok (.mov 0 (.immediate 0xF0005#20)) := by decide
/-- M-9. -/
theorem test_decode_ldr : decode 0x16110000#32 = .ok (.ldr 1 (.indirect 1)) := by decide
/-- M-13. -/
theorem test_decode_str : decode 0x1C300200#32 = .ok (.str 3 (.direct 0x00200#20)) := by decide
/-- M-20. -/
theorem test_decode_str_forbidden_mode : decode 0x1A120000#32 = .ok (.str 1 (.register 2)) := by decide
/-- D-3. -/
theorem test_decode_add : decode 0x22120000#32 = .ok (.add 1 (.register 2)) := by decide
/-- E-7. -/
theorem test_decode_adc : decode 0x28180000#32 = .ok (.adc 1 (.immediate 0x80000#20)) := by decide
/-- S-4. -/
theorem test_decode_sub : decode 0x301FFFFF#32 = .ok (.sub 1 (.immediate 0xFFFFF#20)) := by decide
/-- B-3. -/
theorem test_decode_sbc : decode 0x3A120000#32 = .ok (.sbc 1 (.register 2)) := by decide
/-- K-7. -/
theorem test_decode_cmp : decode 0x40112345#32 = .ok (.cmp 1 (.immediate 0x12345#20)) := by decide
/-- L-4. -/
theorem test_decode_lsl : decode 0x48100013#32 = .ok (.lsl 1 (.immediate 0x00013#20)) := by decide
/-- R-3. -/
theorem test_decode_lsr : decode 0x52120000#32 = .ok (.lsr 1 (.register 2)) := by decide
/-- A-7. -/
theorem test_decode_asr : decode 0x58100015#32 = .ok (.asr 1 (.immediate 0x00015#20)) := by decide
/-- O-5. -/
theorem test_decode_rol : decode 0x60100028#32 = .ok (.rol 1 (.immediate 0x00028#20)) := by decide
/-- Q-3. -/
theorem test_decode_ror : decode 0x6A120000#32 = .ok (.ror 1 (.register 2)) := by decide
/-- N-1. -/
theorem test_decode_and : decode 0x7010FF00#32 = .ok (.and 1 (.immediate 0x0FF00#20)) := by decide
/-- Y-3. -/
theorem test_decode_orr : decode 0x7A120000#32 = .ok (.orr 1 (.register 2)) := by decide
/-- X-2. -/
theorem test_decode_eor : decode 0x80112345#32 = .ok (.eor 1 (.immediate 0x12345#20)) := by decide
/-- T-1. -/
theorem test_decode_not : decode 0x88100000#32 = .ok (.not 1 .immediate) := by decide
/-- H-5, the ra field ignored. -/
theorem test_decode_jmp : decode 0x94500100#32 = .ok (.jmp (.direct 0x00100#20)) := by decide
/-- J-2. -/
theorem test_decode_bcc : decode 0x9E030000#32 = .ok (.bcc (.indirect 3)) := by decide
/-- J-5. -/
theorem test_decode_bcs : decode 0xA4000040#32 = .ok (.bcs (.direct 0x00040#20)) := by decide
/-- J-10. -/
theorem test_decode_bpl : decode 0xAE030000#32 = .ok (.bpl (.indirect 3)) := by decide
/-- J-13. -/
theorem test_decode_bmi : decode 0xB4000040#32 = .ok (.bmi (.direct 0x00040#20)) := by decide
/-- J-18. -/
theorem test_decode_bne : decode 0xBE030000#32 = .ok (.bne (.indirect 3)) := by decide
/-- J-21. -/
theorem test_decode_beq : decode 0xC4000040#32 = .ok (.beq (.direct 0x00040#20)) := by decide
/-- J-26. -/
theorem test_decode_bvc : decode 0xCE030000#32 = .ok (.bvc (.indirect 3)) := by decide
/-- J-29. -/
theorem test_decode_bvs : decode 0xD4000040#32 = .ok (.bvs (.direct 0x00040#20)) := by decide
/-- Section 6.1: op 27 and op 31 are unassigned, whatever the other bits. -/
theorem test_decode_op27 : decode 0xD8000000#32 = .error (.unassignedOpcode 27#5) := by decide
theorem test_decode_op31 : decode 0xFFFFFFFF#32 = .error (.unassignedOpcode 31#5) := by decide
/-- Section 6.1: the record of 0x16320000. -/
theorem test_decode_record : decodeRecord 0x16320000#32 = ⟨2#5, 3#2, 3#4, 2#4, 0x20000#20⟩ := by decide
/-- Rule R91: the assembler leaves ignored bits 0. -/
theorem test_encode_jmp : encode (.jmp (.indirect 13)) = 0x960D0000#32 := by decide
/-- The same word as an opcode-table row numbers it. -/
theorem test_decode_table_word : decodeTableWord 32 0x10000000 = some (.ldr 0 (.immediate 0#20)) := by decide

/-- A numbering that can be read back is injective. -/
theorem injective_of_reads_back {num : Numbering} (h : ∀ m, mnemonicOf num (num m) = some m) : Function.Injective num := by
  intro a b e
  have hb := h b
  rw [← e, h a] at hb
  exact Option.some.inj hb

/-- The default numbering can be read back. -/
theorem mnemonicOf_opcodeOf (m : Mnemonic) : mnemonicOf opcodeOf (opcodeOf m) = some m := by cases m <;> decide

/-- The default numbering of decision D1 meets rule R9's conditions. -/
theorem test_default_numbering_is_admissible : opcodeOf.admissible :=
  ⟨injective_of_reads_back mnemonicOf_opcodeOf, rfl, fun m => by cases m <;> decide⟩

/-- Another numbering rule R9 admits: ADD at 0 and HLT at 4. -/
def addAtZero : Numbering := fun m => if m = .add then 0#5 else if m = .hlt then 4#5 else opcodeOf m

/-- And one with no mnemonic at 0: HLT at 27. -/
def noneAtZero : Numbering := fun m => if m = .hlt then 27#5 else opcodeOf m

theorem test_addAtZero_is_admissible : addAtZero.admissible :=
  ⟨injective_of_reads_back (num := addAtZero) fun m => by cases m <;> decide, rfl, fun m => by cases m <;> decide⟩

theorem test_noneAtZero_is_admissible : noneAtZero.admissible :=
  ⟨injective_of_reads_back (num := noneAtZero) fun m => by cases m <;> decide, rfl, fun m => by cases m <;> decide⟩

/-! One instruction. -/

/-- A state after reset with these flags, `r1` and `r2`. -/
def start (a b : Val) (f : Flags) : State := ((State.reset.setFlags f).writeReg 1 a).writeReg 2 b

/-- The state an answer holds, if it is a next state. -/
def answered (o : StepOutcome) : Option State :=
  match o with
  | .next t => some t
  | .fault _ | .refused _ => none

/-- `r1` and the flags after an instruction. -/
def alu (i : Instr) (a b : Val) (f : Flags) : Option (Val × Flags) :=
  (answered (exec i (start a b f))).map fun t => (t.readReg 1, t.ccr)

/-- One step of the word `w` placed at `pc`. -/
def stepWord (s : State) (w : Nat) : Option State := answered (step (s.withFetchWord 32 w))

/-- D-2. -/
theorem test_add_d2 :
    alu (.add 1 (.immediate 0x80000#20)) 0x80000#20 0x00000#20 ⟨false, false, false, false⟩ = some (0x00000#20, ⟨true, true, false, true⟩) := by decide
/-- D-3. -/
theorem test_add_d3 :
    alu (.add 1 (.register 2)) 0xFFFFF#20 0x00001#20 ⟨false, false, false, false⟩ = some (0x00000#20, ⟨true, true, false, false⟩) := by decide
/-- E-3. -/
theorem test_adc_e3 :
    alu (.adc 1 (.register 2)) 0xFFFFF#20 0xFFFFF#20 ⟨true, false, false, false⟩ = some (0xFFFFF#20, ⟨true, false, true, false⟩) := by decide
/-- E-6. -/
theorem test_adc_e6 :
    alu (.adc 1 (.register 2)) 0x80000#20 0x7FFFF#20 ⟨true, false, false, false⟩ = some (0x00000#20, ⟨true, true, false, false⟩) := by decide
/-- S-4. -/
theorem test_sub_s4 :
    alu (.sub 1 (.immediate 0xFFFFF#20)) 0x7FFFF#20 0x00000#20 ⟨false, false, false, false⟩ = some (0x80000#20, ⟨true, false, true, true⟩) := by decide
/-- S-3. -/
theorem test_sub_s3 :
    alu (.sub 1 (.register 2)) 0x80000#20 0x00001#20 ⟨false, false, false, false⟩ = some (0x7FFFF#20, ⟨false, false, false, true⟩) := by decide
/-- B-3. -/
theorem test_sbc_b3 :
    alu (.sbc 1 (.register 2)) 0x00000#20 0x00000#20 ⟨false, false, false, false⟩ = some (0xFFFFF#20, ⟨true, false, true, false⟩) := by decide
/-- B-6. -/
theorem test_sbc_b6 :
    alu (.sbc 1 (.register 2)) 0x00000#20 0xFFFFF#20 ⟨false, false, false, false⟩ = some (0x00000#20, ⟨true, true, false, false⟩) := by decide
/-- K-5. -/
theorem test_cmp_k5 :
    alu (.cmp 1 (.immediate 0x80000#20)) 0x00000#20 0x00000#20 ⟨false, false, false, false⟩ = some (0x00000#20, ⟨true, false, true, true⟩) := by decide
/-- K-3. -/
theorem test_cmp_k3 :
    alu (.cmp 1 (.register 2)) 0x00007#20 0x00005#20 ⟨true, false, false, false⟩ = some (0x00007#20, ⟨false, false, false, false⟩) := by decide
/-- L-6. -/
theorem test_lsl_l6 :
    alu (.lsl 1 (.register 2)) 0x00001#20 0x00014#20 ⟨false, false, false, false⟩ = some (0x00000#20, ⟨true, true, false, false⟩) := by decide
/-- L-8. -/
theorem test_lsl_l8 :
    alu (.lsl 1 (.immediate 0x00015#20)) 0x80001#20 0x00000#20 ⟨true, false, false, false⟩ = some (0x00000#20, ⟨false, true, false, true⟩) := by decide
/-- R-5. -/
theorem test_lsr_r5 :
    alu (.lsr 1 (.immediate 0x00014#20)) 0x80000#20 0x00000#20 ⟨false, false, false, false⟩ = some (0x00000#20, ⟨true, true, false, true⟩) := by decide
/-- R-2. -/
theorem test_lsr_r2 :
    alu (.lsr 1 (.immediate 0x00000#20)) 0x80001#20 0x00000#20 ⟨true, false, false, true⟩ = some (0x80001#20, ⟨true, false, true, false⟩) := by decide
/-- A-7. -/
theorem test_asr_a7 :
    alu (.asr 1 (.immediate 0x00015#20)) 0x80000#20 0x00000#20 ⟨false, false, false, false⟩ = some (0xFFFFF#20, ⟨true, false, true, false⟩) := by decide
/-- A-9. -/
theorem test_asr_a9 :
    alu (.asr 1 (.register 2)) 0x7FFFF#20 0x00013#20 ⟨false, false, false, false⟩ = some (0x00000#20, ⟨true, true, false, false⟩) := by decide
/-- O-8. -/
theorem test_rol_o8 :
    alu (.rol 1 (.immediate 0xFFFFF#20)) 0x12345#20 0x00000#20 ⟨false, false, false, false⟩ = some (0x2891A#20, ⟨false, false, false, false⟩) := by decide
/-- O-2. -/
theorem test_rol_o2 :
    alu (.rol 1 (.immediate 0x00000#20)) 0x80001#20 0x00000#20 ⟨false, false, false, true⟩ = some (0x80001#20, ⟨false, false, true, true⟩) := by decide
/-- Q-5. -/
theorem test_ror_q5 :
    alu (.ror 1 (.immediate 0x00001#20)) 0x00001#20 0x00000#20 ⟨false, false, false, false⟩ = some (0x80000#20, ⟨true, false, true, true⟩) := by decide
/-- Q-7. -/
theorem test_ror_q7 :
    alu (.ror 1 (.immediate 0x00018#20)) 0x12345#20 0x00000#20 ⟨false, false, false, false⟩ = some (0x51234#20, ⟨false, false, false, false⟩) := by decide
/-- N-2. -/
theorem test_and_n2 :
    alu (.and 1 (.immediate 0x00000#20)) 0xF0F0F#20 0x00000#20 ⟨true, false, false, true⟩ = some (0x00000#20, ⟨true, true, false, true⟩) := by decide
/-- N-3. -/
theorem test_and_n3 :
    alu (.and 1 (.register 2)) 0xF0F0F#20 0xFFFFF#20 ⟨false, false, false, false⟩ = some (0xF0F0F#20, ⟨false, false, true, false⟩) := by decide
/-- Y-2. -/
theorem test_orr_y2 :
    alu (.orr 1 (.immediate 0x00000#20)) 0x00000#20 0x00000#20 ⟨true, false, false, true⟩ = some (0x00000#20, ⟨true, true, false, true⟩) := by decide
/-- Y-3. -/
theorem test_orr_y3 :
    alu (.orr 1 (.register 2)) 0x00001#20 0x80000#20 ⟨false, false, false, false⟩ = some (0x80001#20, ⟨false, false, true, false⟩) := by decide
/-- X-2. -/
theorem test_eor_x2 :
    alu (.eor 1 (.immediate 0x12345#20)) 0x12345#20 0x00000#20 ⟨true, false, false, true⟩ = some (0x00000#20, ⟨true, true, false, true⟩) := by decide
/-- X-3. -/
theorem test_eor_x3 :
    alu (.eor 1 (.register 2)) 0x12345#20 0xFFFFF#20 ⟨false, false, false, false⟩ = some (0xEDCBA#20, ⟨false, false, true, false⟩) := by decide
/-- T-2. -/
theorem test_not_t2 :
    alu (.not 1 .immediate) 0x0000F#20 0x00000#20 ⟨true, false, false, true⟩ = some (0xFFFF0#20, ⟨true, false, true, true⟩) := by decide
/-- T-3. -/
theorem test_not_t3 :
    alu (.not 1 .immediate) 0xFFFFF#20 0x00000#20 ⟨false, false, false, false⟩ = some (0x00000#20, ⟨false, true, false, false⟩) := by decide

/-! One step, from a word in memory (sections 5, 6.3, 6.4). -/

/-- All four flags set. -/
def allFlags : Flags := ⟨true, true, true, true⟩

/-- After reset with the program counter and the flags set, and one word of memory. -/
def at_ (pc : Val) (f : Flags) (a : Val) (w : Word) : State := ((State.reset.writeMem a w).setFlags f).setPc pc

/-- M-1. -/
theorem test_mov_immediate :
    (stepWord (at_ 0 allFlags 0x00100#20 0) 0x08000005).map (fun t => (t.readReg 0, t.pc, t.ccr)) =
      some (5#20, 1#20, allFlags) := by decide
/-- M-5: r15 reads as the address of the next instruction. -/
theorem test_mov_from_r15 :
    (stepWord (at_ 0x00020#20 allFlags 0x00100#20 0) 0x0A1F0000).map (fun t => (t.readReg 1, t.pc)) =
      some (0x00021#20, 0x00021#20) := by decide
/-- M-8: only bits 19:0 of the word are loaded. -/
theorem test_ldr_low_bits :
    (stepWord (at_ 0 allFlags 0x00100#20 0x12345678#32) 0x14200100).map (fun t => (t.readReg 2, t.ccr)) =
      some (0x45678#20, allFlags) := by decide
/-- M-10: a load into r15 jumps. -/
theorem test_ldr_to_r15 :
    (stepWord (at_ 0 allFlags 0x00020#20 0x00000080#32) 0x14F00020).map State.pc = some 0x00080#20 := by decide
/-- M-14: a store to the last word of memory. -/
theorem test_str_last_word :
    (stepWord ((start 0xFFFFF#20 0xFFFFF#20 allFlags)) 0x1E120000).map (fun t => (t.readMem 0xFFFFF#20, t.ccr)) =
      some (0x000FFFFF#32, allFlags) := by decide
/-- M-16: a store over its own word leaves the holding register. -/
theorem test_str_own_word :
    (stepWord (at_ 0 allFlags 0x00100#20 0) 0x1C000000).map (fun t => (t.readMem 0#20, t.ir)) =
      some (0#32, 0x1C000000#32) := by decide
/-- M-17: MOV in mode 10 is an error; only fetch's writes happen. -/
theorem test_mov_mode_10 :
    (stepWord (at_ 0 allFlags 0x00100#20 0) 0x0C100010).map (fun t => (t.status, t.pc, t.running)) =
      some (.error ⟨.unsupportedAddressingMode 1#5 2#2, 0x0C100010#32, 0#20⟩, 1#20, true) := by decide
/-- Section 6.3: op 27 in mode 11 is InvalidOpcode, with its record. -/
theorem test_op27_mode_11 :
    (stepWord (at_ 0x00010#20 ⟨true, false, true, false⟩ 0x00100#20 0) 0xDE1FFFFF).map (fun t => (t.status, t.pc)) =
      some (.error ⟨.invalidOpcode 27#5, 0xDE1FFFFF#32, 0x00010#20⟩, 0x00011#20) := by decide

/-- `pc` after a branch word at 0x00004, with r3 = 0x00040 (section 5.2). -/
def branchPc (w : Nat) (f : Flags) : Option Val :=
  (stepWord ((at_ 4 f 0x00100#20 0).writeReg 3 0x00040#20) w).map State.pc

/-- J-2. -/
theorem test_bcc_taken : branchPc 0x9E030000 ⟨false, true, true, true⟩ = some 0x00040#20 := by decide
/-- J-3. -/
theorem test_bcc_not_taken : branchPc 0x9C000040 ⟨true, false, false, false⟩ = some 0x00005#20 := by decide
/-- J-6. -/
theorem test_bcs_taken : branchPc 0xA6030000 ⟨true, false, false, false⟩ = some 0x00040#20 := by decide
/-- J-7. -/
theorem test_bcs_not_taken : branchPc 0xA4000040 ⟨false, true, true, true⟩ = some 0x00005#20 := by decide
/-- J-10. -/
theorem test_bpl_taken : branchPc 0xAE030000 ⟨true, true, false, true⟩ = some 0x00040#20 := by decide
/-- J-11. -/
theorem test_bpl_not_taken : branchPc 0xAC000040 ⟨false, false, true, false⟩ = some 0x00005#20 := by decide
/-- J-14. -/
theorem test_bmi_taken : branchPc 0xB6030000 ⟨false, false, true, false⟩ = some 0x00040#20 := by decide
/-- J-15. -/
theorem test_bmi_not_taken : branchPc 0xB4000040 ⟨true, true, false, true⟩ = some 0x00005#20 := by decide
/-- J-18. -/
theorem test_bne_taken : branchPc 0xBE030000 ⟨true, false, true, true⟩ = some 0x00040#20 := by decide
/-- J-19. -/
theorem test_bne_not_taken : branchPc 0xBC000040 ⟨false, true, false, false⟩ = some 0x00005#20 := by decide
/-- J-22. -/
theorem test_beq_taken : branchPc 0xC6030000 ⟨false, true, false, false⟩ = some 0x00040#20 := by decide
/-- J-23. -/
theorem test_beq_not_taken : branchPc 0xC4000040 ⟨true, false, true, true⟩ = some 0x00005#20 := by decide
/-- J-26. -/
theorem test_bvc_taken : branchPc 0xCE030000 ⟨true, true, true, false⟩ = some 0x00040#20 := by decide
/-- J-27. -/
theorem test_bvc_not_taken : branchPc 0xCC000040 ⟨false, false, false, true⟩ = some 0x00005#20 := by decide
/-- J-30. -/
theorem test_bvs_taken : branchPc 0xD6030000 ⟨false, false, false, true⟩ = some 0x00040#20 := by decide
/-- J-31. -/
theorem test_bvs_not_taken : branchPc 0xD4000040 ⟨true, true, true, false⟩ = some 0x00005#20 := by decide
/-- H-3: `JMP [r15]` goes to the next instruction. -/
theorem test_jmp_r15 : (stepWord (at_ 0x00010#20 allFlags 0x00100#20 0) 0x960F0000).map State.pc = some 0x00011#20 := by
  decide
/-- H-6: JMP in mode 00 is an error and does not jump. -/
theorem test_jmp_mode_00 :
    (stepWord (at_ 0 allFlags 0x00100#20 0) 0x90000100).map (fun t => (t.pc, t.status.isError)) = some (1#20, true) := by
  decide
/-- H-8. -/
theorem test_hlt :
    (stepWord (at_ 7 allFlags 0x00100#20 0) 0x00000000).map (fun t => (t.pc, finished t, t.ccr)) =
      some (8#20, true, allFlags) := by decide
/-- H-10: HLT in mode 11 does not halt. -/
theorem test_hlt_mode_11 :
    (stepWord (at_ 0 allFlags 0x00100#20 0) 0x06000000).map (fun t => (t.pc, finished t, t.status.isError)) =
      some (1#20, false, true) := by decide
/-- C-10: `pc` wraps at the top of memory. -/
theorem test_pc_wraps :
    (stepWord (at_ 0xFFFFF#20 allFlags 0x00100#20 0) 0x08100055).map (fun t => (t.readReg 1, t.pc)) =
      some (0x00055#20, 0#20) := by decide
/-- C-12: `ADD r15, r15` at address 0. -/
theorem test_add_r15_r15 :
    (stepWord (at_ 0 allFlags 0x00100#20 0) 0x22FF0000).map (fun t => (t.pc, t.ccr)) =
      some (2#20, ⟨false, false, false, false⟩) := by decide
/-- C-3: reset keeps memory. -/
theorem test_reset_keeps_memory :
    (hostReset (at_ 0x00077#20 allFlags 0x00010#20 0xDEADBEEF#32)).readMem 0x00010#20 = 0xDEADBEEF#32 := by decide
/-- C-11: a host write of a register is masked. -/
theorem test_host_write_is_masked :
    (answered (hostWriteSlot State.reset 3 0xFFFFFFFF#32)).map (fun t => t.slot 3) = some 0x000FFFFF#32 := by decide
/-- C-4: the sub-phase fetch. -/
theorem test_sub_phase_fetch :
    (answered (hostFetch (State.reset.withFetchWord 32 0x08000005))).map (fun t => (t.ir, t.pc, t.phase)) =
      some (0x08000005#32, 1#20, .fetched) := by decide

/-- Rule R63: under a numbering with ADD at 0, the stored word 0x00000007 is `ADD r0, #0x00007`. -/
theorem test_stored_word_under_addAtZero :
    (answered (stepWith addAtZero specParams (State.reset.withFetchWord 32 0x00000007))).map
      (fun t => (t.readReg 0, t.running)) = some (7#20, true) := by decide
/-- Rules R9 and R215: with HLT at 27, a HLT word in mode 01 reports op 27. -/
theorem test_forbidden_mode_under_noneAtZero :
    (answered (stepWith noneAtZero specParams (State.reset.withFetchWord 32 0xDA000000))).map State.status =
      some (.error ⟨.unsupportedAddressingMode 27#5 1#2, 0xDA000000#32, 0#20⟩) := by decide
/-- Rule R211 and decision D16: the codes of the error output, for the words of section 6.3 and for `ok`. -/
theorem test_error_codes :
    ((stepWord State.reset 0xF8000000).map (fun t => errorCode t.status) = some (some 3)) ∧
    ((stepWord State.reset 0x0C100010).map (fun t => errorCode t.status) = some (some 2)) ∧
    ((stepWord State.reset 0x08000005).map (fun t => errorCode t.status) = some (some 0)) := by decide

/-! Witnesses: the hypotheses of each statement, met together. -/

/-- A state between two steps, Running, with MOV r0, #5 at address 0. -/
def withMov : State := State.reset.withFetchWord 32 0x08000005

/-- The same with any word, at any program counter. -/
def ready (pc : Val) (w : Nat) : State := (State.reset.setPc pc).withFetchWord 32 w

/-- The default numbering is injective. -/
theorem witness_DecodeInvertsEncodeUnderEveryNumbering :
    Function.Injective opcodeOf := test_default_numbering_is_admissible.1
/-- A word with its ignored bits set. -/
theorem witness_DecodedWordIsEncodedOnItsUsedBits :
    decodeWith opcodeOf 0x09FFFFFF#32 = .ok (.mov 15 (.immediate 0xFFFFF#20)) ∧
    decodeWith addAtZero 0x00000007#32 = .ok (.add 0 (.immediate 7#20)) := by decide
/-- MOV r0, #5 at address 0. -/
theorem witness_StepRunsTheDecodedInstruction :
    withMov.running = true ∧ withMov.phase = .idle ∧ decode (withMov.readMem withMov.pc) = .ok (.mov 0 (.immediate 5#20)) := by decide
/-- The smallest unassigned op, the largest, and the largest assigned one. -/
theorem witness_UnassignedOpcodeRaisesInvalidOpcode :
    (27 ≤ ((ready 0 0xD8000000).readMem (ready 0 0xD8000000).pc).toNat / 2 ^ 27 ∧ (ready 0 0xD8000000).running = true ∧
      (ready 0 0xD8000000).phase = .idle) ∧
    27 ≤ ((ready 0 0xFFFFFFFF).readMem (ready 0 0xFFFFFFFF).pc).toNat / 2 ^ 27 ∧
    ((ready 0 0xD7FFFFFF).readMem (ready 0 0xD7FFFFFF).pc).toNat / 2 ^ 27 < 27 := by decide
/-- One instruction of each group. -/
theorem witness_ForbiddenModeRaisesUnsupportedAddressingMode :
    (Instr.not 1 .indirect).wellFormed = false ∧ (Instr.mov 1 (.direct 0#20)).wellFormed = false ∧
    (Instr.beq (.register 3)).wellFormed = false ∧
    decodeWith noneAtZero (State.reset.setIr 0xDA000000#32).ir = .ok (.hlt .register) := by decide
/-- An unassigned opcode, a forbidden mode at the last address, a step that completes, and a step while Halted. -/
theorem witness_ErrorStepCommitsFetchAlone :
    (∃ t e, step (ready 0 0xF8000000) = .next t ∧ t.status = .error e) ∧
    (∃ t e, step (ready 0xFFFFF#20 0x0C100010) = .next t ∧ t.status = .error e) ∧
    (∃ t, step withMov = .next t ∧ t.status = .ok) ∧ ∃ t, step withMov.halt = .next t ∧ t.status = .halted := ⟨⟨_, _, rfl, rfl⟩, ⟨_, _, rfl, rfl⟩, ⟨_, rfl, rfl⟩, ⟨_, rfl, rfl⟩⟩
/-- A step that answers. -/
theorem witness_NoStepReportsInvalidAddressingMode :
    ∃ t, step withMov = .next t := ⟨_, rfl⟩
/-- The core at power-on is Halted. -/
theorem witness_StepWhileHaltedOnlyReportsHalted :
    finished (State.powerOn (Vector.replicate 17 7#32) allFlags ⟨[]⟩) = true := by decide
/-- Two states that differ in what the last command reported. -/
theorem witness_StepIsAFunctionOfTheArchitecturalState :
    withMov.phase = .idle ∧ (withMov.report .halted).phase = .idle ∧ withMov.mem = (withMov.report .halted).mem ∧
    withMov.regs = (withMov.report .halted).regs ∧ withMov.ccr = (withMov.report .halted).ccr ∧
    withMov.running = (withMov.report .halted).running ∧ withMov ≠ withMov.report .halted := by decide
/-- A running step, a halted one, and each other command answering. -/
theorem witness_OnlyHaltStopsAndOnlyResetStarts :
    ((∃ t, step withMov = .next t) ∧ withMov.running = true) ∧
    ((∃ t, step withMov.halt = .next t) ∧ withMov.halt.running = false) ∧
    (∃ t, hostWriteMem withMov 5 7 = .next t) ∧ (∃ t, hostWriteSlot withMov 15 7 = .next t) ∧
    (∃ t, hostLoad withMov 0xFFFFF#20 [1, 2] = .next t) ∧ (∃ t, hostFetch withMov = .next t) ∧
    (∃ t, hostDecode (withMov.setPhase .fetched) = .next t) ∧ ∃ t, hostExecute (withMov.setPhase .decoded) = .next t := ⟨⟨⟨_, rfl⟩, rfl⟩, ⟨⟨_, rfl⟩, rfl⟩, ⟨_, rfl⟩, ⟨_, rfl⟩, ⟨_, rfl⟩, ⟨_, rfl⟩, ⟨_, rfl⟩, ⟨_, rfl⟩⟩
/-- At the last address: an instruction that does not write `pc`, one that ends in an error, and JMP. -/
theorem witness_PcAfterAStep :
    (∃ t, decode ((ready 0xFFFFF#20 0x08000005).readMem (ready 0xFFFFF#20 0x08000005).pc) = .ok (.mov 0 (.immediate 5#20)) ∧
      slotOf pcReg ∉ slotsWritten (.mov 0 (.immediate 5#20)) ∧ step (ready 0xFFFFF#20 0x08000005) = .next t) ∧
    (∃ t, decode ((ready 0xFFFFF#20 0x90000100).readMem (ready 0xFFFFF#20 0x90000100).pc) = .ok (.jmp (.immediate 0x00100#20)) ∧
      step (ready 0xFFFFF#20 0x90000100) = .next t ∧ t.status.isError = true) ∧
    ∃ t, decode ((ready 0xFFFFF#20 0x94000100).readMem (ready 0xFFFFF#20 0x94000100).pc) = .ok (.jmp (.direct 0x00100#20)) ∧
      step (ready 0xFFFFF#20 0x94000100) = .next t ∧ (Operand.direct 0x00100#20).isAddress = true := ⟨⟨_, by decide, by decide, rfl⟩, ⟨_, by decide, rfl, rfl⟩, ⟨_, by decide, rfl, rfl⟩⟩
/-- At the last address: the MOV, the STR and the ADD. -/
theorem witness_ReadingR15GivesTheNextAddress :
    ((ready 0xFFFFF#20 0x0A1F0000).running = true ∧ (ready 0xFFFFF#20 0x0A1F0000).phase = .idle ∧
      (ready 0xFFFFF#20 0x0A1F0000).mem.wf = true ∧
      decode ((ready 0xFFFFF#20 0x0A1F0000).readMem (ready 0xFFFFF#20 0x0A1F0000).pc) = .ok (.mov 1 (.register pcReg))) ∧
    decode ((ready 0xFFFFF#20 0x1CF00050).readMem (ready 0xFFFFF#20 0x1CF00050).pc) = .ok (.str pcReg (.direct 0x00050#20)) ∧
    decode ((ready 0xFFFFF#20 0x20FFFFFF).readMem (ready 0xFFFFF#20 0x20FFFFFF).pc) = .ok (.add pcReg (.immediate 0xFFFFF#20)) := by decide
/-- The reset state is between two steps. -/
theorem witness_EveryRunGoesOn :
    State.reset.phase = .idle := by decide
/-- A step from a state with a word in memory. -/
theorem witness_EveryStepKeepsTheInvariant :
    Inv withMov ∧ ∃ t, step withMov = .next t := ⟨⟨by decide, by decide, by decide, by decide⟩, ⟨_, rfl⟩⟩
/-- A memory with a word in it, in canonical form. -/
theorem witness_ResetStateMeetsTheInvariant :
    withMov.mem.wf = true ∧ withMov.mem.cells ≠ [] := by decide
/-- Each command answers from a state that meets the invariant. -/
theorem witness_HostCommandsKeepTheInvariant :
    Inv withMov ∧ (∃ t, hostWriteMem withMov 5 7 = .next t) ∧ (∃ t, hostLoad withMov 0xFFFFF#20 [1, 2] = .next t) ∧
    (∃ t, hostWriteSlot withMov 15 0xFFFFFFFF#32 = .next t) ∧ (∃ t, hostFetch withMov = .next t) ∧
    (Inv (withMov.setPhase .fetched) ∧ ∃ t d, hostDecode (withMov.setPhase .fetched) = .next (t, d)) ∧
    Inv (withMov.setPhase .decoded) ∧ ∃ t, hostExecute (withMov.setPhase .decoded) = .next t := ⟨⟨by decide, by decide, by decide, by decide⟩, ⟨_, rfl⟩, ⟨_, rfl⟩, ⟨_, rfl⟩, ⟨_, rfl⟩,
    ⟨⟨by decide, by decide, by decide, by decide⟩, ⟨_, _, rfl⟩⟩, ⟨by decide, by decide, by decide, by decide⟩, ⟨_, rfl⟩⟩
/-- MOV r0, #5 and then the all-zero word, HLT; and a halted core, in no step. -/
theorem witness_RunThatEndsWellMeetsNoError :
    endsWell 2 withMov = true ∧ endsWell 0 withMov.halt = true ∧ endsWell 2 (ready 0 0xF8000000) = false := by decide
theorem witness_RunThatEndsWellMeetsNoError_run : ∃ t, Sys2Proof.core.run 2 withMov = .next t := ⟨_, rfl⟩
/-- H-4: the self-loop at 0x00010; a JMP through a register that holds its address, and a taken BCC, at 0 and at the last one. -/
theorem witness_SelfJumpNeverHalts :
    ((ready 0x00010#20 0x94000010).running = true ∧ (ready 0x00010#20 0x94000010).phase = .idle ∧
      (Operand.direct 0x00010#20).isAddress = true ∧
      operandValue (fetch (ready 0x00010#20 0x94000010)) (.direct 0x00010#20) = (ready 0x00010#20 0x94000010).pc ∧
      decode ((ready 0x00010#20 0x94000010).readMem (ready 0x00010#20 0x94000010).pc) = .ok (.jmp (.direct 0x00010#20))) ∧
    (operandValue (fetch (ready 0 0x960D0000)) (.indirect 13) = (ready 0 0x960D0000).pc ∧
      decode ((ready 0 0x960D0000).readMem (ready 0 0x960D0000).pc) = .ok (.jmp (.indirect 13))) ∧
    operandValue (fetch (ready 0xFFFFF#20 0x9C0FFFFF)) (.direct 0xFFFFF#20) = (ready 0xFFFFF#20 0x9C0FFFFF).pc ∧
    (!(ready 0xFFFFF#20 0x9C0FFFFF).ccr.c) = true ∧
    decode ((ready 0xFFFFF#20 0x9C0FFFFF).readMem (ready 0xFFFFF#20 0x9C0FFFFF).pc) = .ok (.bcc (.direct 0xFFFFF#20)) := by decide
/-- After reset. -/
theorem witness_SubPhasesInOrderAreOneStep :
    State.reset.running = true ∧ State.reset.phase = .idle := by decide
/-- Halted, and Running in each phase. -/
theorem witness_CommandsOutOfOrderAreRefused :
    State.reset.halt.running = false ∧ (State.reset.running = true ∧ State.reset.phase ≠ .fetched ∧ State.reset.phase ≠ .decoded) ∧
    (State.reset.setPhase .fetched).running = true ∧ (State.reset.setPhase .fetched).phase ≠ .idle ∧
    (State.reset.setPhase .decoded).phase ≠ .idle := by decide
/-- After reset. -/
theorem witness_HostSlotWriteMasksAndSparesTheHoldingRegister :
    State.reset.phase = .idle := by decide
/-- Two words across the top of memory: the last address, address 0, and the first address outside. -/
theorem witness_LoadedImageReadsBack :
    (State.reset.phase = .idle ∧ State.reset.mem.wf = true ∧ [1#32, 2#32].length ≤ 2 ^ 20) ∧
    ([1#32, 2#32][1]? = some 2#32 ∧ 0xFFFFF#20 + BitVec.ofNat 20 1 = 0#20) ∧
    ∀ k, k < [1#32, 2#32].length → (1 : Val) ≠ 0xFFFFF#20 + BitVec.ofNat 20 k := by decide
/-- An instruction with a destination, and one with none. -/
theorem witness_OnlyDestinationSlotsAreWritten :
    (∃ t, exec (.add 15 (.immediate 1#20)) withMov = .next t) ∧ ∃ t, exec (.cmp 1 (.register 2)) withMov = .next t := ⟨⟨_, rfl⟩, ⟨_, rfl⟩⟩
/-- A shift by 0, a rotate by 0 and by 20, a logic instruction and a branch, each answering. -/
theorem witness_FlagsOutsideTheRowAreKept :
    (∃ t, exec (.lsl 1 (.immediate 0#20)) withMov = .next t) ∧ (∃ t, exec (.ror 1 (.immediate 0#20)) withMov = .next t) ∧
    (∃ t, exec (.ror 1 (.immediate 20#20)) withMov = .next t) ∧ (∃ t, exec (.and 1 (.register 2)) withMov = .next t) ∧
    ∃ t, exec (.bvs (.direct 4#20)) withMov = .next t := ⟨⟨_, rfl⟩, ⟨_, rfl⟩, ⟨_, rfl⟩, ⟨_, rfl⟩, ⟨_, rfl⟩⟩
/-- A store, an address it does not store to, and an instruction that is no STR. -/
theorem witness_OnlyStrChangesMemory :
    (∃ t, exec (.str 1 (.direct 0x00200#20)) withMov = .next t) ∧
    (∀ ra o, Instr.str 1 (.direct 0x00200#20) = .str ra o → 0x00201#20 ≠ operandValue withMov o) ∧
    (∃ t, exec (.mov 1 (.immediate 1#20)) withMov = .next t) ∧
    ∀ ra o, Instr.mov 1 (.immediate 1#20) = .str ra o → 0#20 ≠ operandValue withMov o := ⟨⟨_, rfl⟩, fun _ _ h => by cases h; decide, ⟨_, rfl⟩, fun _ _ h => by cases h⟩
/-- A word stored and overwritten by the background. -/
theorem witness_EqualReadsMakeEqualMemories :
    (⟨[]⟩ : Memory).wf = true ∧ (((⟨[]⟩ : Memory).write 5 7).write 5 0).wf = true ∧
    ∀ a, (((⟨[]⟩ : Memory).write 5 7).write 5 0).read a = (⟨[]⟩ : Memory).read a := ⟨by decide, by decide, fun _ => rfl⟩
/-- Section 6.1: a record in each mode, the register ones with their register, and a permitted mode. -/
theorem witness_ResolverGivesTheModesOperand :
    (decodeRecord 0x08000005#32).mode = 0b00#2 ∧ (decodeRecord 0x14200100#32).mode = 0b10#2 ∧
    ((decodeRecord 0x0BFFFFFF#32).mode = 0b01#2 ∧ (15 : Reg).val = (decodeRecord 0x0BFFFFFF#32).rb.toNat) ∧
    ((decodeRecord 0x960D0000#32).mode = 0b11#2 ∧ (13 : Reg).val = (decodeRecord 0x960D0000#32).rb.toNat) ∧
    permits .jmp (operandOf (decodeRecord 0x960D0000#32)).mode = true := by decide
/-- Both operand forms. -/
theorem witness_MovWritesItsOperand :
    (Operand.immediate 0xFFFFF#20).isValue = true ∧ (Operand.register 15).isValue = true := by decide
/-- Both operand forms. -/
theorem witness_LdrLoadsTheLowTwentyBits :
    (Operand.direct 0xFFFFF#20).isAddress = true ∧ (Operand.indirect 15).isAddress = true := by decide
/-- Both operand forms, in a memory in canonical form. -/
theorem witness_StrStoresTheZeroExtendedRegister :
    (Operand.direct 0xFFFFF#20).isAddress = true ∧ (Operand.indirect 15).isAddress = true ∧ withMov.mem.wf = true := by decide
/-- A store to a literal address and a load through a register that holds it. -/
theorem witness_LoadReturnsTheLastStore :
    ∃ t, (start 0x12345#20 0x00200#20 allFlags).mem.wf = true ∧ (Operand.direct 0x00200#20).isAddress = true ∧
      (Operand.indirect 2).isAddress = true ∧
      exec (.str 1 (.direct 0x00200#20)) (start 0x12345#20 0x00200#20 allFlags) = .next t ∧
      operandValue t (.indirect 2) = operandValue (start 0x12345#20 0x00200#20 allFlags) (.direct 0x00200#20) := ⟨_, by decide, by decide, by decide, rfl, by decide⟩
/-- A store from a running state. -/
theorem witness_ExecutingAStoredWordHalts :
    ∃ t, withMov.mem.wf = true ∧ withMov.running = true ∧ withMov.phase = .idle ∧ (Operand.direct 0xFFFFF#20).isAddress = true ∧
      exec (.str 1 (.direct 0xFFFFF#20)) withMov = .next t := ⟨_, by decide, by decide, by decide, by decide, rfl⟩
/-- Both operand forms. -/
theorem witness_AddAndAdcFollowTheAdditionRule :
    (Operand.immediate 0xFFFFF#20).isValue = true ∧ (Operand.register 15).isValue = true := by decide
/-- Both operand forms. -/
theorem witness_SubAndSbcFollowTheSubtractionRule :
    (Operand.immediate 0xFFFFF#20).isValue = true ∧ (Operand.register 15).isValue = true := by decide
/-- Both operand forms. -/
theorem witness_CmpSetsSubFlagsAndWritesNoRegister :
    (Operand.immediate 0xFFFFF#20).isValue = true ∧ (Operand.register 15).isValue = true := by decide
/-- Each instruction of the family answers. -/
theorem witness_OverflowFlagIsSignedOverflow :
    (Operand.immediate 1#20).isValue = true ∧ (∃ t, exec (.add 1 (.immediate 1#20)) withMov = .next t) ∧
    (∃ t, exec (.adc 1 (.immediate 1#20)) withMov = .next t) ∧ (∃ t, exec (.sub 1 (.immediate 1#20)) withMov = .next t) ∧
    (∃ t, exec (.cmp 1 (.immediate 1#20)) withMov = .next t) ∧ ∃ t, exec (.sbc 1 (.immediate 1#20)) withMov = .next t := ⟨by decide, ⟨_, rfl⟩, ⟨_, rfl⟩, ⟨_, rfl⟩, ⟨_, rfl⟩, ⟨_, rfl⟩⟩
/-- A SUB that borrows (0 - 1), and one that does not (0 - 0). -/
theorem witness_SbcReadsCarryAgainstSubsBorrow :
    (Operand.immediate 1#20).isValue = true ∧ (Operand.register 15).isValue = true ∧
    (∃ t, exec (.sub 1 (.immediate 1#20)) withMov = .next t) ∧ ∃ t, exec (.sub 1 (.immediate 0#20)) withMov = .next t := ⟨by decide, by decide, ⟨_, rfl⟩, ⟨_, rfl⟩⟩
/-- The amounts 0, 1, 19, 20, 21, where the rule changes its case. -/
theorem witness_LslMultipliesByAPowerOfTwo :
    ((Operand.immediate 0#20).isValue = true ∧ (operandValue withMov (.immediate 0#20)).toNat = 0) ∧
    ((Operand.immediate 1#20).isValue = true ∧ (operandValue withMov (.immediate 1#20)).toNat = 1) ∧
    ((Operand.immediate 19#20).isValue = true ∧ (operandValue withMov (.immediate 19#20)).toNat = 19) ∧
    ((Operand.immediate 20#20).isValue = true ∧ (operandValue withMov (.immediate 20#20)).toNat = 20) ∧
    ((Operand.immediate 21#20).isValue = true ∧ (operandValue withMov (.immediate 21#20)).toNat = 21) := by decide
/-- The amounts 0, 1, 19, 20, 21, where the rule changes its case. -/
theorem witness_LsrDividesByAPowerOfTwo :
    ((Operand.immediate 0#20).isValue = true ∧ (operandValue withMov (.immediate 0#20)).toNat = 0) ∧
    ((Operand.immediate 1#20).isValue = true ∧ (operandValue withMov (.immediate 1#20)).toNat = 1) ∧
    ((Operand.immediate 19#20).isValue = true ∧ (operandValue withMov (.immediate 19#20)).toNat = 19) ∧
    ((Operand.immediate 20#20).isValue = true ∧ (operandValue withMov (.immediate 20#20)).toNat = 20) ∧
    ((Operand.immediate 21#20).isValue = true ∧ (operandValue withMov (.immediate 21#20)).toNat = 21) := by decide
/-- The amounts 0, 1, 19, 20, 21, where the rule changes its case. -/
theorem witness_AsrDividesTheSignedValue :
    ((Operand.immediate 0#20).isValue = true ∧ (operandValue withMov (.immediate 0#20)).toNat = 0) ∧
    ((Operand.immediate 1#20).isValue = true ∧ (operandValue withMov (.immediate 1#20)).toNat = 1) ∧
    ((Operand.immediate 19#20).isValue = true ∧ (operandValue withMov (.immediate 19#20)).toNat = 19) ∧
    ((Operand.immediate 20#20).isValue = true ∧ (operandValue withMov (.immediate 20#20)).toNat = 20) ∧
    ((Operand.immediate 21#20).isValue = true ∧ (operandValue withMov (.immediate 21#20)).toNat = 21) := by decide
/-- The amounts 0, 1, 20, 21, where the rule changes its case. -/
theorem witness_RolMovesEveryBitLeft :
    ((Operand.immediate 0#20).isValue = true ∧ (operandValue withMov (.immediate 0#20)).toNat = 0) ∧
    ((Operand.immediate 1#20).isValue = true ∧ (operandValue withMov (.immediate 1#20)).toNat = 1) ∧
    ((Operand.immediate 20#20).isValue = true ∧ (operandValue withMov (.immediate 20#20)).toNat = 20) ∧
    ((Operand.immediate 21#20).isValue = true ∧ (operandValue withMov (.immediate 21#20)).toNat = 21) := by decide
/-- The amounts 0, 1, 20, 21, where the rule changes its case. -/
theorem witness_RorMovesEveryBitRight :
    ((Operand.immediate 0#20).isValue = true ∧ (operandValue withMov (.immediate 0#20)).toNat = 0) ∧
    ((Operand.immediate 1#20).isValue = true ∧ (operandValue withMov (.immediate 1#20)).toNat = 1) ∧
    ((Operand.immediate 20#20).isValue = true ∧ (operandValue withMov (.immediate 20#20)).toNat = 20) ∧
    ((Operand.immediate 21#20).isValue = true ∧ (operandValue withMov (.immediate 21#20)).toNat = 21) := by decide
/-- A rotate by 20, left and right. -/
theorem witness_FullRotationKeepsTheValue :
    (Operand.immediate 20#20).isValue = true ∧ (operandValue withMov (.immediate 20#20)).toNat ≠ 0 ∧
    (operandValue withMov (.immediate 20#20)).toNat % 20 = 0 ∧ (∃ t, exec (.rol 1 (.immediate 20#20)) withMov = .next t) ∧
    ∃ t, exec (.ror 1 (.immediate 20#20)) withMov = .next t := ⟨by decide, by decide, by decide, ⟨_, rfl⟩, ⟨_, rfl⟩⟩
/-- A rotate by 3 and back. -/
theorem witness_RorUndoesRol :
    ∃ t u, (Operand.immediate 3#20).isValue = true ∧ exec (.rol 1 (.immediate 3#20)) withMov = .next t ∧
      operandValue t (.immediate 3#20) = operandValue withMov (.immediate 3#20) ∧
      exec (.ror 1 (.immediate 3#20)) t = .next u := ⟨_, _, by decide, rfl, rfl, rfl⟩
/-- A value operand, an operand of another form, and modes of both kinds. -/
theorem witness_LogicWritesBitwiseResultsAndZN :
    (Operand.register 15).isValue = true ∧ (Operand.indirect 15).isValue = false ∧ (Mode.register ≠ .immediate) := by decide
/-- NOT answers. -/
theorem witness_NotTwiceRestoresTheRegister :
    ∃ t, exec (.not 1 .immediate) withMov = .next t := ⟨_, rfl⟩
/-- Both operand forms; with C, Z, N, V = 1, 0, 0, 1 some branches are taken and some are not. -/
theorem witness_EachBranchTestsItsOneFlag :
    (Operand.direct 0xFFFFF#20).isAddress = true ∧ (Operand.indirect 15).isAddress = true ∧
    (start 0 0 ⟨true, false, false, true⟩).ccr.c = true ∧ (start 0 0 ⟨true, false, false, true⟩).ccr.z = false := by decide
/-- Both operand forms. -/
theorem witness_JmpSetsPcToItsOperand :
    (Operand.direct 0xFFFFF#20).isAddress = true ∧ (Operand.indirect 15).isAddress = true := by decide
/-- A mode HLT does not have. -/
theorem witness_HltHaltsOnlyInItsMode :
    Mode.indirect ≠ .immediate := by decide
/-- After reset, a literal target and the program counter itself. -/
theorem witness_BranchToTheNextAddressChangesNothing :
    (Operand.direct 0#20).isAddress = true ∧ (Operand.indirect pcReg).isAddress = true ∧ State.reset.slotsMasked ∧
    operandValue State.reset (.direct 0#20) = State.reset.pc ∧ operandValue State.reset (.indirect pcReg) = State.reset.pc := by decide
/-- A word that decodes, one in a forbidden mode, and one whose op the numbering leaves unassigned. -/
theorem witness_StepFollowsEveryNumbering :
    ((ready 0 0x00000007).running = true ∧ (ready 0 0x00000007).phase = .idle) ∧
    decodeWith addAtZero ((ready 0 0x00000007).readMem (ready 0 0x00000007).pc) = .ok (.add 0 (.immediate 7#20)) ∧
    (Function.Injective addAtZero ∧
      addAtZero .add = (decodeRecord ((ready 0 0x00000007).readMem (ready 0 0x00000007).pc)).op) ∧
    (decodeWith noneAtZero ((ready 0 0xDA000000).readMem (ready 0 0xDA000000).pc) = .ok (.hlt .register) ∧
      (Instr.hlt .register).wellFormed = false) ∧
    ∀ m, noneAtZero m ≠ (decodeRecord ((ready 0 0x00000007).readMem (ready 0 0x00000007).pc)).op := ⟨by decide, by decide, ⟨test_addAtZero_is_admissible.1, by decide⟩, by decide, fun m => by cases m <;> decide⟩
/-- A store from a running state, under a numbering with ADD at 0 and under one with nothing there. -/
theorem witness_StoredWordRunsTheMnemonicNumberedZero :
    (∃ t, withMov.mem.wf = true ∧ withMov.running = true ∧ withMov.phase = .idle ∧ (Operand.direct 0xFFFFF#20).isAddress = true ∧
      exec (.str 1 (.direct 0xFFFFF#20)) withMov = .next t) ∧
    (Function.Injective addAtZero ∧ addAtZero .add = 0b00000#5) ∧ ∀ m, noneAtZero m ≠ 0b00000#5 := ⟨⟨_, by decide, by decide, by decide, by decide, rfl⟩, ⟨test_addAtZero_is_admissible.1, rfl⟩,
    fun m => by cases m <;> decide⟩

end Sys2Proof.Tests
end

/-! PROOFS. The family of spec/30_encoding.md: O3. The holding register is read by the decoder and by the error record
alone, so two words with the same decoded record run alike: the two answers differ in the holding register and in the
record's word, and in nothing else. Bit 24 is in no field of the record (rule R76). -/

namespace Sys2Proof

/-- The slice of the bit-24 mask in each field of the record is zero (rules R70, R76). -/
theorem decodeRecord_or_bit24 (w : Word) : decodeRecord (w ||| 0x01000000#32) = decodeRecord w := by
  simp [decodeRecord, BitVec.extractLsb'_or]

/-- Decoding reads a word through its record alone (rules R71, R103). -/
theorem decodeWith_congr (num : Numbering) {w w' : Word} (h : decodeRecord w' = decodeRecord w) :
    decodeWith num w' = decodeWith num w :=
  congrArg (instrOfRecord num) h

end Sys2Proof

namespace Sys2Proof.Machine

/-- The status with another word in the error record, if it holds one. -/
def Status.withWord (w : Word) : Status → Status
  | .error e => .error { e with word := w }
  | st => st

@[simp] theorem errorCode_withWord (w : Word) (st : Status) : errorCode (st.withWord w) = errorCode st := by
  cases st <;> rfl

/-- The state with another fetched word: in the holding register, and in the error record if there is one. -/
def State.withHeldWord (t : State) (w : Word) : State := (t.setIr w).report (t.status.withWord w)

section WithHeldWord
variable (t : State) (w : Word)

@[simp] theorem withHeldWord_ccr : (t.withHeldWord w).ccr = t.ccr := rfl
@[simp] theorem withHeldWord_running : (t.withHeldWord w).running = t.running := rfl
@[simp] theorem withHeldWord_mem : (t.withHeldWord w).mem = t.mem := rfl
@[simp] theorem withHeldWord_phase : (t.withHeldWord w).phase = t.phase := rfl
@[simp] theorem withHeldWord_status : (t.withHeldWord w).status = t.status.withWord w := rfl

/-- No register an instruction can name is the holding register (rule R24). -/
@[simp] theorem withHeldWord_slot (r : Reg) : (t.withHeldWord w).slot (slotOf r) = t.slot (slotOf r) := by
  simp [State.withHeldWord, slot_setIr]

/-- The error output shows the same kind with the same raw values. -/
@[simp] theorem errorPort_withHeldWord_kind :
    (errorPort (t.withHeldWord w)).map (·.kind) = (errorPort t).map (·.kind) := by
  simp only [errorPort, withHeldWord_status]
  cases t.status <;> rfl

end WithHeldWord

section SetIr
variable (s : State) (w w' : Word) (r : Reg) (v : Val) (o : Operand)

@[simp] theorem setIr_setIr : (s.setIr w).setIr w' = s.setIr w' := by
  simp [State.setIr, State.setSlot]

/-- A register write and a write of the holding register do not meet (rule R24). -/
theorem writeReg_setIr : (s.setIr w).writeReg r v = (s.writeReg r v).setIr w := by
  refine state_ext (fun i => ?_) rfl rfl rfl rfl rfl
  by_cases h : i = irSlot <;> simp [slot_setIr, slot_writeReg, h]

/-- No operand is read from the holding register (rules R24, R85). -/
@[simp] theorem operandValue_setIr : operandValue (s.setIr w) o = operandValue s o := by
  cases o <;> simp [operandValue]

/-- The record of an error takes its word, and nothing else, from the holding register (rule R211). -/
theorem errorRecord_setIr (k : ErrorKind) : errorRecord k (s.setIr w) = { errorRecord k s with word := w } := by
  simp [errorRecord]

end SetIr

/-- Both outcomes are next states, the second the first with the fetched word `w`. -/
def AnswersAlike (w : Word) (x y : StepOutcome) : Prop := ∃ t : State, x = .next t ∧ y = .next (t.withHeldWord w)

section Alike
variable {s : State} {w : Word}

theorem finish_alike (s : State) (w : Word) : AnswersAlike w (finish s) (finish (s.setIr w)) := ⟨_, rfl, rfl⟩

theorem finish_writeReg_alike (s : State) (w : Word) (r : Reg) (v : Val) :
    AnswersAlike w (finish (s.writeReg r v)) (finish ((s.setIr w).writeReg r v)) := by
  rw [writeReg_setIr]
  exact finish_alike _ w

theorem commitAlu_alike (s : State) (w : Word) (ra : Reg) (r : AluResult) :
    AnswersAlike w (commitAlu ra r s) (commitAlu ra r (s.setIr w)) :=
  finish_writeReg_alike (s.setFlags r.flags) w ra r.res

theorem raise_alike (k : ErrorKind) (s : State) (w : Word) : AnswersAlike w (raise k s) (raise k (s.setIr w)) := by
  refine ⟨_, rfl, ?_⟩
  rw [raise_eq, errorRecord_setIr]
  rfl

/-- The mode check reads the held word's record alone (rules R84, R215). -/
theorem withMode_alike (h : decodeRecord w = decodeRecord s.ir) {m : Mnemonic} {md : Mode} {run run' : StepOutcome}
    (hrun : AnswersAlike w run run') : AnswersAlike w (withMode m md s run) (withMode m md (s.setIr w) run') := by
  cases hm : permits m md with
  | true => rwa [withMode_permitted hm, withMode_permitted hm]
  | false =>
    have hk : unsupportedMode (s.setIr w) = unsupportedMode s := by simp [unsupportedMode, h]
    rw [withMode_forbidden hm, withMode_forbidden hm, hk]
    exact raise_alike (unsupportedMode s) s w

theorem withOperand_alike (h : decodeRecord w = decodeRecord s.ir) {m : Mnemonic} {o : Operand}
    {run run' : Val → StepOutcome} (hrun : ∀ b, AnswersAlike w (run b) (run' b)) :
    AnswersAlike w (withOperand m o s run) (withOperand m o (s.setIr w) run') := by
  simp only [withOperand, operandValue_setIr]
  exact withMode_alike h (hrun _)

theorem branchIf_alike (h : decodeRecord w = decodeRecord s.ir) (m : Mnemonic) (taken : Bool) (o : Operand) :
    AnswersAlike w (branchIf m taken o s) (branchIf m taken o (s.setIr w)) := by
  refine withOperand_alike h fun b => ?_
  cases taken with
  | true => exact finish_writeReg_alike s w pcReg b
  | false => exact finish_alike s w

/-- No instruction reads the holding register but for the raw fields of its record: every one of the 27, in every mode,
answers alike with either word held. -/
theorem exec_alike (h : decodeRecord w = decodeRecord s.ir) (i : Instr) :
    AnswersAlike w (exec i s) (exec i (s.setIr w)) := by
  cases i with
  | hlt m => exact withMode_alike h (finish_alike s.halt w)
  | not ra m =>
    simp only [exec, execNot, setIr_readReg]
    exact withMode_alike h (commitAlu_alike s w ra _)
  | mov ra o => exact withOperand_alike h fun b => finish_writeReg_alike s w ra b
  | ldr ra o =>
    simp only [exec, execLdr, setIr_readMem]
    exact withOperand_alike h fun b => finish_writeReg_alike s w ra _
  | str ra o =>
    simp only [exec, execStr, setIr_readReg]
    exact withOperand_alike h fun b => finish_alike (s.writeMem b _) w
  | cmp ra o =>
    simp only [exec, execCmp, setIr_readReg]
    exact withOperand_alike h fun b => finish_alike (s.setFlags _) w
  | add ra o | adc ra o | sub ra o | sbc ra o | lsl ra o | lsr ra o | asr ra o | and ra o | orr ra o | eor ra o =>
    simp only [exec, execAdd, execAdc, execSub, execSbc, execLsl, execLsr, execAsr, execAnd, execOrr, execEor,
      setIr_readReg, setIr_ccr]
    exact withOperand_alike h fun b => commitAlu_alike s w ra _
  | rol ra o | ror ra o =>
    simp only [exec, execRol, execRor, setIr_readReg, setIr_ccr]
    refine withOperand_alike h fun b => ?_
    split
    · exact finish_alike (s.setFlags _) w
    · exact commitAlu_alike s w ra _
  | jmp o => exact withOperand_alike h fun b => finish_writeReg_alike s w pcReg b
  | bcc o | bcs o | bpl o | bmi o | bne o | beq o | bvc o | bvs o => exact branchIf_alike h _ _ o

/-- Two words with one decoded record run alike, under every numbering (rules R71, R103, R105). -/
theorem runFetchedWith_alike (num : Numbering) (h : decodeRecord w = decodeRecord s.ir) :
    AnswersAlike w (runFetchedWith num s) (runFetchedWith num (s.setIr w)) := by
  have hd : decodeWith num (s.setIr w).ir = decodeWith num s.ir := by
    rw [setIr_ir]
    exact decodeWith_congr num h
  rcases runFetchedWith_cases num s with ⟨i, hi, e⟩ | ⟨op, hop, e⟩
  · rw [e, runFetchedWith_ok (hd.trans hi)]
    exact exec_alike h i
  · rw [e, runFetchedWith_unassigned (hd.trans hop)]
    exact raise_alike _ s w

end Alike

/-- Settles O3: bit 24 is in no field of the record, and words with one record run alike. -/
theorem reservedBitChangesNothing : Obligations.ReservedBitChangesNothing := by
  unfold Obligations.ReservedBitChangesNothing
  intro s w
  have hrec : decodeRecord (w ||| 0x01000000#32) = decodeRecord w := decodeRecord_or_bit24 w
  have hheld : decodeRecord (w ||| 0x01000000#32) = decodeRecord (s.setIr w).ir := by rw [setIr_ir, hrec]
  obtain ⟨t, ht, hu⟩ := runFetchedWith_alike opcodeOf hheld
  rw [setIr_setIr] at hu
  exact ⟨hrec, decodeWith_congr opcodeOf hrec, t, _, ht, hu, withHeldWord_slot t _, rfl, rfl, rfl, rfl,
    errorCode_withWord _ _, errorPort_withHeldWord_kind t _⟩

end Sys2Proof.Machine

/-! PROOFS. The family of spec/40_execution_cycle.md: O11. No instruction reads the status the last command reported, and
every answer writes a new one, so a report before a step is lost in it. -/

namespace Sys2Proof.Machine

section ReportLost
variable (s : State) (st : Status)

theorem fetch_report : fetch (s.report st) = (fetch s).report st := rfl

/-- The end of an instruction writes the status over (rule R100). -/
theorem finish_report : finish (s.report st) = finish s := rfl

theorem commitAlu_report (ra : Reg) (r : AluResult) : commitAlu ra r (s.report st) = commitAlu ra r s := rfl

/-- An error writes the status over, and its record does not hold the old one (rule R211). -/
theorem raise_report (k : ErrorKind) : raise k (s.report st) = raise k s := rfl

theorem operandValue_report (o : Operand) : operandValue (s.report st) o = operandValue s o := by
  cases o <;> rfl

variable {s st}

theorem withMode_report {m : Mnemonic} {md : Mode} {run run' : StepOutcome} (h : run' = run) :
    withMode m md (s.report st) run' = withMode m md s run := by
  cases hm : permits m md with
  | true => rw [withMode_permitted hm, withMode_permitted hm, h]
  | false => rw [withMode_forbidden hm, withMode_forbidden hm]; rfl

theorem withOperand_report {m : Mnemonic} {o : Operand} {run run' : Val → StepOutcome} (h : ∀ b, run' b = run b) :
    withOperand m o (s.report st) run' = withOperand m o s run := by
  simp only [withOperand, operandValue_report]
  exact withMode_report (h _)

theorem branchIf_report (m : Mnemonic) (taken : Bool) (o : Operand) :
    branchIf m taken o (s.report st) = branchIf m taken o s := by
  refine withOperand_report fun b => ?_
  cases taken <;> rfl

/-- No instruction, in any mode, reads the status: its update of the reported state, once the answer's status is written,
is its update of the state itself. -/
theorem exec_report (i : Instr) : exec i (s.report st) = exec i s := by
  cases i with
  | hlt m => exact withMode_report (finish_report s.halt st)
  | not ra m =>
    simp only [exec, execNot, report_readReg, report_ccr]
    exact withMode_report (commitAlu_report s st ra _)
  | mov ra o | ldr ra o | str ra o | cmp ra o =>
    simp only [exec, execMov, execLdr, execStr, execCmp, report_readReg, report_readMem, report_ccr]
    exact withOperand_report fun _ => rfl
  | add ra o | adc ra o | sub ra o | sbc ra o | lsl ra o | lsr ra o | asr ra o | and ra o | orr ra o | eor ra o =>
    simp only [exec, execAdd, execAdc, execSub, execSbc, execLsl, execLsr, execAsr, execAnd, execOrr, execEor,
      report_readReg, report_ccr]
    exact withOperand_report fun _ => commitAlu_report s st ra _
  | rol ra o | ror ra o =>
    simp only [exec, execRol, execRor, report_readReg, report_ccr]
    refine withOperand_report fun b => ?_
    split
    · rfl
    · exact commitAlu_report s st ra _
  | jmp o =>
    simp only [exec, execJmp]
    exact withOperand_report fun _ => rfl
  | bcc o | bcs o | bpl o | bmi o | bne o | beq o | bvc o | bvs o => exact branchIf_report _ _ o

variable (s st)

theorem runFetchedWith_report (num : Numbering) : runFetchedWith num (s.report st) = runFetchedWith num s := by
  rcases runFetchedWith_cases num s with ⟨i, hi, e⟩ | ⟨op, hop, e⟩
  · rw [e, runFetchedWith_ok (s := s.report st) hi, exec_report]
  · rw [e, runFetchedWith_unassigned (s := s.report st) hop, raise_report]

/-- A step answers the same whatever the last command reported (rule R112), in every phase. -/
theorem step_report : step (s.report st) = step s := by
  cases hr : s.running with
  | false => rw [step_halted hr, step_halted (s := s.report st) hr]; rfl
  | true =>
    by_cases hp : s.phase = .idle
    · rw [step_running_idle hr hp, step_running_idle (s := s.report st) hr hp, fetch_report]
      exact runFetchedWith_report _ st opcodeOf
    · rw [step_out_of_order hr hp, step_out_of_order (s := s.report st) hr hp]

end ReportLost

/-- Settles O11: two idle states that agree on the four parts differ at most in their status, which no step reads. -/
theorem stepIsAFunctionOfTheArchitecturalState : Obligations.StepIsAFunctionOfTheArchitecturalState := by
  unfold Obligations.StepIsAFunctionOfTheArchitecturalState
  intro s s' hphase hphase' hmem hregs hccr hrunning
  have hs : s = s'.report s.status := by
    cases s
    cases s'
    simp_all [State.report]
  rw [hs, step_report]

end Sys2Proof.Machine

/-! PROOFS. The family of spec/40_execution_cycle.md: O12. HLT in mode 00 is the one instruction that writes the running
bit, every error leaves it, and of the other commands only `reset` writes it (rule R108). -/

namespace Sys2Proof.Machine

/-- The answer is a next state with the running bit of `s`. -/
def KeepsRunning (s : State) (out : StepOutcome) : Prop := ∃ t : State, out = .next t ∧ t.running = s.running

section Running
variable {s : State}

theorem finish_keepsRunning {u : State} (h : u.running = s.running) : KeepsRunning s (finish u) := ⟨_, finish_eq u, h⟩

theorem commitAlu_keepsRunning (ra : Reg) (r : AluResult) (s : State) : KeepsRunning s (commitAlu ra r s) :=
  ⟨_, commitAlu_eq ra r s, rfl⟩

/-- An error leaves the core Running (rule R210). -/
theorem raise_keepsRunning (k : ErrorKind) (s : State) : KeepsRunning s (raise k s) := ⟨_, raise_eq k s, rfl⟩

theorem withMode_keepsRunning {m : Mnemonic} {md : Mode} {run : StepOutcome}
    (h : permits m md = true → KeepsRunning s run) : KeepsRunning s (withMode m md s run) := by
  rcases withMode_cases m md s run with ⟨hm, e⟩ | ⟨-, e⟩
  · rw [e]
    exact h hm
  · exact ⟨_, e, rfl⟩

theorem withOperand_keepsRunning {m : Mnemonic} {o : Operand} {run : Val → StepOutcome}
    (h : ∀ b, KeepsRunning s (run b)) : KeepsRunning s (withOperand m o s run) :=
  withMode_keepsRunning fun _ => h _

theorem branchIf_keepsRunning (m : Mnemonic) (taken : Bool) (o : Operand) (s : State) :
    KeepsRunning s (branchIf m taken o s) := by
  refine withOperand_keepsRunning fun b => finish_keepsRunning ?_
  cases taken <;> rfl

/-- HLT permits mode 00 and no other (rule R75). -/
theorem mode_of_permits_hlt {m : Mode} (h : permits .hlt m = true) : m = .immediate := by
  revert h
  cases m <;> decide

/-- Every instruction but HLT in mode 00 leaves the running bit. -/
theorem exec_keepsRunning {i : Instr} (h : i ≠ .hlt .immediate) (s : State) : KeepsRunning s (exec i s) := by
  cases i with
  | hlt m => exact withMode_keepsRunning fun hm => absurd (congrArg Instr.hlt (mode_of_permits_hlt hm)) h
  | not ra m =>
    simp only [exec, execNot]
    exact withMode_keepsRunning fun _ => commitAlu_keepsRunning ra _ s
  | mov ra o | ldr ra o | str ra o | cmp ra o =>
    simp only [exec, execMov, execLdr, execStr, execCmp]
    exact withOperand_keepsRunning fun _ => finish_keepsRunning rfl
  | add ra o | adc ra o | sub ra o | sbc ra o | lsl ra o | lsr ra o | asr ra o | and ra o | orr ra o | eor ra o =>
    simp only [exec, execAdd, execAdc, execSub, execSbc, execLsl, execLsr, execAsr, execAnd, execOrr, execEor]
    exact withOperand_keepsRunning fun _ => commitAlu_keepsRunning ra _ s
  | rol ra o | ror ra o =>
    simp only [exec, execRol, execRor]
    refine withOperand_keepsRunning fun b => ?_
    split
    · exact finish_keepsRunning rfl
    · exact commitAlu_keepsRunning ra _ s
  | jmp o =>
    simp only [exec, execJmp]
    exact withOperand_keepsRunning fun _ => finish_keepsRunning rfl
  | bcc o | bcs o | bpl o | bmi o | bne o | beq o | bvc o | bvs o => exact branchIf_keepsRunning _ _ o s

/-- Under every numbering, a fetched word that is not HLT in mode 00 leaves the running bit, by its instruction or by its
error. -/
theorem runFetchedWith_keepsRunning {num : Numbering} (h : decodeWith num s.ir ≠ .ok (.hlt .immediate)) :
    KeepsRunning s (runFetchedWith num s) := by
  rcases runFetchedWith_cases num s with ⟨i, hi, e⟩ | ⟨op, -, e⟩
  · rw [e]
    exact exec_keepsRunning (fun hhlt => h (hhlt ▸ hi)) s
  · rw [e]
    exact raise_keepsRunning _ s

/-- Under every numbering, a Running core ends the run of a fetched word Halted exactly when the word is HLT in mode 00. -/
theorem runFetchedWith_halts_iff {num : Numbering} {t : State} (hr : s.running = true)
    (h : runFetchedWith num s = .next t) : t.running = false ↔ decodeWith num s.ir = .ok (.hlt .immediate) := by
  by_cases hd : decodeWith num s.ir = .ok (.hlt .immediate)
  · rw [runFetchedWith_ok hd, exec_hlt, next_inj] at h
    subst h
    simp [hd]
  · obtain ⟨u, hu, hrun⟩ := runFetchedWith_keepsRunning hd
    obtain rfl := next_inj.mp (hu.symm.trans h)
    simp [hd, hrun, hr]

end Running

section HostCommands
variable {s t : State} {a : Val} {w : Word} {i : Slot} {ws : List Word} {d : DecodedRecord} {num : Numbering}

/-- A sub-phase that answers ran in its phase on a Running core (rule R110). -/
theorem inPhase_next {α : Type} {ph : Phase} {run : Host.Outcome α Fault Refusal} {x : α}
    (h : inPhase ph s run = .next x) : s.running = true ∧ s.phase = ph ∧ run = .next x := by
  unfold inPhase at h
  split at h
  · rename_i hr
    split at h
    · rename_i hp
      exact ⟨hr, hp, h⟩
    · cases h
  · cases h

theorem hostFetch_next (h : hostFetch s = .next t) :
    s.running = true ∧ s.phase = .idle ∧ t = (fetch s).setPhase .fetched := by
  obtain ⟨hr, hp, h⟩ := inPhase_next h
  rw [fetchFault_specParams] at h
  exact ⟨hr, hp, (next_inj.mp h).symm⟩

theorem hostDecode_next (h : hostDecode s = .next (t, d)) :
    s.running = true ∧ s.phase = .fetched ∧ t = s.setPhase .decoded ∧ d = decodeRecord s.ir := by
  obtain ⟨hr, hp, h⟩ := inPhase_next h
  cases h
  exact ⟨hr, hp, rfl, rfl⟩

theorem hostExecuteWith_next (h : hostExecuteWith num s = .next t) :
    s.running = true ∧ s.phase = .decoded ∧ runFetchedWith num (s.setPhase .idle) = .next t :=
  inPhase_next h

theorem hostWriteMem_next (h : hostWriteMem s a w = .next t) : s.phase = .idle ∧ t = s.writeMem a w := by
  unfold hostWriteMem at h
  split at h
  · exact ⟨‹_›, (next_inj.mp h).symm⟩
  · cases h

theorem hostLoad_next (h : hostLoad s a ws = .next t) : s.phase = .idle ∧ t = loadWords s a ws := by
  unfold hostLoad at h
  split at h
  · exact ⟨‹_›, (next_inj.mp h).symm⟩
  · cases h

/-- A host write of a register that answers (rule R41): not of slot 16, between steps, masked to 20 bits. -/
theorem hostWriteSlot_next (h : hostWriteSlot s i w = .next t) :
    i ≠ irSlot ∧ s.phase = .idle ∧ t = s.setSlot i (zext32 (low20 w)) := by
  unfold hostWriteSlot at h
  split at h
  · cases h
  · split at h
    · exact ⟨‹_›, ‹_›, (next_inj.mp h).symm⟩
    · cases h

@[simp] theorem loadWords_running (s : State) (a : Val) (ws : List Word) : (loadWords s a ws).running = s.running := by
  induction ws generalizing s a with
  | nil => rfl
  | cons w rest ih => rw [loadWords, ih, writeMem_running]

end HostCommands

/-- A Running step ends Halted exactly when the word at `pc` is HLT in mode 00 (rules R108, R202). -/
theorem step_halts_iff {s t : State} (h : step s = .next t) (hr : s.running = true) :
    t.running = false ↔ decode (s.readMem s.pc) = .ok (.hlt .immediate) := by
  rcases step_cases h with ⟨hhalted, -⟩ | ⟨-, -, hrun⟩
  · simp [hr] at hhalted
  · rw [← fetch_ir]
    exact runFetchedWith_halts_iff (s := fetch s) hr hrun

/-- A halted core stays halted (rule R109). -/
theorem step_stays_halted {s t : State} (h : step s = .next t) (hr : s.running = false) : t.running = false := by
  rw [step_halted hr, next_inj] at h
  rw [← h, report_running, hr]

/-- Settles O12: one clause per command, each from what the command does when it answers. -/
theorem onlyHaltStopsAndOnlyResetStarts : Obligations.OnlyHaltStopsAndOnlyResetStarts := by
  unfold Obligations.OnlyHaltStopsAndOnlyResetStarts
  refine ⟨fun s t => step_halts_iff, fun s t => step_stays_halted, fun s => ⟨rfl, rfl, rfl⟩, ?_, ?_, ?_,
    fun regs ccr mem => rfl⟩
  case refine_1 =>
    rintro s t a w i ws (h | h | h | h)
    · obtain ⟨-, rfl⟩ := hostWriteMem_next h
      rfl
    · obtain ⟨-, -, rfl⟩ := hostWriteSlot_next h
      rfl
    · obtain ⟨-, rfl⟩ := hostLoad_next h
      exact loadWords_running s a ws
    · obtain ⟨-, -, rfl⟩ := hostFetch_next h
      rfl
  case refine_2 =>
    intro s t d h
    obtain ⟨-, -, rfl, -⟩ := hostDecode_next h
    rfl
  case refine_3 =>
    intro s t h
    obtain ⟨hr, -, hrun⟩ := hostExecuteWith_next h
    exact runFetchedWith_halts_iff (s := s.setPhase .idle) hr hrun

end Sys2Proof.Machine

/-! PROOFS. The family of spec/45_control_flow.md: O51. Each branch answers the state with `pc` written if its flag has its
value and the state itself if not, so its frame is that of one register write, or of none. -/

namespace Sys2Proof.Machine

section Branches
variable (o : Operand) (s : State)

/-- The eight branches on `o`, each with whether it is taken in `s` (rules R192 to R199). -/
def branchesOn : List (Instr × Bool) :=
  [(.bcc o, !s.ccr.c), (.bcs o, s.ccr.c), (.bpl o, !s.ccr.n), (.bmi o, s.ccr.n),
    (.bne o, !s.ccr.z), (.beq o, s.ccr.z), (.bvc o, !s.ccr.v), (.bvs o, s.ccr.v)]

/-- Every branch in a permitted mode, by the one condition it tests (rule R190). -/
theorem exec_branchesOn (h : o.isAddress = true) : ∀ p ∈ branchesOn o s,
    exec p.1 s = .next ((if p.2 then s.setPc (operandValue s o) else s).report .ok) := by
  simp only [branchesOn, List.forall_mem_cons]
  exact ⟨exec_bcc o s h, exec_bcs o s h, exec_bpl o s h, exec_bmi o s h, exec_bne o s h, exec_beq o s h,
    exec_bvc o s h, exec_bvs o s h, fun _ hp => absurd hp List.not_mem_nil⟩

end Branches

section Frames
variable (s : State) (r : Reg) (v : Val)

theorem report_ok_completesBut_nil : CompletesBut [] s (s.report .ok) :=
  ⟨rfl, fun _ _ => rfl, fun _ => rfl, rfl, rfl⟩

theorem writeReg_completesBut : CompletesBut [slotOf r] s ((s.writeReg r v).report .ok) where
  status := rfl
  slots j hj := slot_writeReg_other s j r v (List.ne_of_not_mem_cons hj)
  memory _ := rfl
  control := ⟨rfl, rfl⟩

/-- A register write clears bits 31:20 of its slot (rule R22). -/
theorem writeReg_holds : holds ((s.writeReg r v).report .ok) r v := by
  refine ⟨readReg_writeReg_self s r v, ?_⟩
  rw [report_slot, slot_writeReg, if_pos rfl]
  exact zext32_toNat_lt v

end Frames

/-- Settles O51: every branch answers by `exec_branchesOn`; taken, it is one write of `pc`, and not taken, none. -/
theorem eachBranchTestsItsOneFlag : Obligations.EachBranchTestsItsOneFlag := by
  unfold Obligations.EachBranchTestsItsOneFlag
  intro o s ho p hp
  refine ⟨_, exec_branchesOn o s ho p hp, ?_⟩
  cases p.2 with
  | true =>
    exact ⟨fun _ => ⟨writeReg_holds s pcReg _, writeReg_completesBut s pcReg _⟩, fun h => absurd h (by decide), rfl⟩
  | false => exact ⟨fun h => absurd h (by decide), fun _ => report_ok_completesBut_nil s, rfl⟩

end Sys2Proof.Machine

/-! PROOFS. The family of spec/60_exceptions.md: O9. Execute has no error but UnsupportedAddressingMode and the opcode check
none but InvalidOpcode, so a step, under every numbering, leaves a legal status (rules R212, R213). -/

namespace Sys2Proof.Machine

/-- The kind a legal status leaves out is the one with code 1 (rules R211, R213). -/
theorem legal_iff_errorCode_ne_one (st : Status) : st.legal = true ↔ errorCode st ≠ some 1 := by
  cases st with
  | ok | halted => simp [Status.legal, errorCode]
  | error e => cases hk : e.kind <;> simp [Status.legal, errorCode, hk]

/-- An instruction completes, or raises UnsupportedAddressingMode (rule R215). -/
theorem exec_status_legal {i : Instr} {s t : State} (h : exec i s = .next t) : t.status.legal = true := by
  rcases exec_answers i s with ⟨u, -, hcompletes⟩ | hunsupported
  · rw [hcompletes, next_inj] at h
    rw [← h, report_status]
    rfl
  · rw [hunsupported, next_inj] at h
    rw [← h, report_status]
    rfl

/-- A fetched word ends as its instruction does, or raises InvalidOpcode (rule R214). -/
theorem runFetchedWith_status_legal {num : Numbering} {s t : State} (h : runFetchedWith num s = .next t) :
    t.status.legal = true := by
  rcases runFetchedWith_cases num s with ⟨i, -, hexec⟩ | ⟨op, -, hraise⟩
  · exact exec_status_legal (hexec.symm.trans h)
  · rw [hraise, raise_eq, next_inj] at h
    rw [← h, report_status]
    rfl

/-- Every step that answers, Halted or Running, leaves a legal status, whatever the status was before it. -/
theorem step_status_legal {s t : State} (h : step s = .next t) : t.status.legal = true := by
  rcases step_cases h with ⟨-, rfl⟩ | ⟨-, -, hrun⟩
  · rfl
  · exact runFetchedWith_status_legal hrun

/-- Settles O9: the four codes name the four modes, and code 1 is the one a legal status has not. -/
theorem noStepReportsInvalidAddressingMode : Obligations.NoStepReportsInvalidAddressingMode := by
  unfold Obligations.NoStepReportsInvalidAddressingMode
  exact ⟨codeOfMode_modeOfCode, fun _ t h => (legal_iff_errorCode_ne_one t.status).mp (step_status_legal h)⟩

end Sys2Proof.Machine

/-! PROOFS. The family of spec/30_encoding.md: O1, O2, O4. The record of an encoded instruction holds the fields it was
packed from; encoding a decoded instruction packs the fields of its word again, masked to the bits that are used. -/

namespace Sys2Proof

/-- The record of an encoded instruction (rules R70, R71, R91). -/
theorem decodeRecord_encodeWith (num : Numbering) (i : Instr) :
    decodeRecord (encodeWith num i) =
      ⟨num i.mnemonic, codeOfMode i.mode, raBits i, (lowBits i).extractLsb' 16 4, lowBits i⟩ :=
  decodeRecord_packWord _ _ _ _

/-- The rb field of an operand written as `rb << 16` (rule R91). -/
theorem extract_rbField (f : BitVec 4) : (f ++ 0#16).extractLsb' 16 4 = f :=
  BitVec.extractLsb'_append_eq_left

/-- The operand read from the fields an operand is written with is that operand (rules R85, R91). -/
theorem operandOf_operandBits (o : Operand) (op : BitVec 5) (ra : BitVec 4) :
    operandOf ⟨op, codeOfMode o.mode, ra, (operandBits o).extractLsb' 16 4, operandBits o⟩ = o := by
  cases o with
  | immediate v | direct v => rfl
  | register rb | indirect rb => simp [operandOf, operandBits, extract_rbField, Operand.mode]

/-- The instruction read from the fields an instruction is written with is that instruction. -/
theorem instrOf_encodedFields (i : Instr) (op : BitVec 5) :
    instrOf i.mnemonic ⟨op, codeOfMode i.mode, raBits i, (lowBits i).extractLsb' 16 4, lowBits i⟩ = i := by
  cases i with
  | hlt m | not ra m => simp [instrOf, Instr.mnemonic, Instr.mode, raBits]
  | mov ra o | ldr ra o | str ra o | add ra o | adc ra o | sub ra o | sbc ra o | cmp ra o | lsl ra o | lsr ra o
  | asr ra o | rol ra o | ror ra o | and ra o | orr ra o | eor ra o =>
    simp [instrOf, Instr.mnemonic, Instr.mode, raBits, lowBits, operandOf_operandBits]
  | jmp o | bcc o | bcs o | bpl o | bmi o | bne o | beq o | bvc o | bvs o =>
    simp [instrOf, Instr.mnemonic, Instr.mode, raBits, lowBits, operandOf_operandBits]

/-- A word whose `op` the numbering gives to `m` decodes to an instruction of `m` (rules R72, R103). -/
theorem decodeWith_of_op {num : Numbering} (hnum : Function.Injective num) {m : Mnemonic} {w : Word}
    (h : num m = (decodeRecord w).op) : decodeWith num w = .ok (instrOf m (decodeRecord w)) := by
  simp only [decodeWith, instrOfRecord, ← h, mnemonicOf_num hnum]

/-- A word whose `op` the numbering gives to no mnemonic does not decode (rules R73, R214). -/
theorem decodeWith_of_unassigned {num : Numbering} {w : Word} (h : ∀ m, num m ≠ (decodeRecord w).op) :
    decodeWith num w = .error (.unassignedOpcode (decodeRecord w).op) := by
  simp only [decodeWith, instrOfRecord, mnemonicOf_eq_none.mpr h]

/-- Settles O1: the word's `op` selects the mnemonic again, and its other fields give the operands back. -/
theorem decodeInvertsEncodeUnderEveryNumbering : Obligations.DecodeInvertsEncodeUnderEveryNumbering := by
  unfold Obligations.DecodeInvertsEncodeUnderEveryNumbering
  intro num hnum i
  have hrec := decodeRecord_encodeWith num i
  have hop : num i.mnemonic = (decodeRecord (encodeWith num i)).op := by rw [hrec]
  rw [decodeWith_of_op hnum hop, hrec, instrOf_encodedFields]

/-- A word is its five fields and bit 24 side by side (rule R70). -/
theorem word_eq_fields (w : Word) :
    (decodeRecord w).op ++ (decodeRecord w).mode ++ w.extractLsb' 24 1 ++ (decodeRecord w).ra ++ (decodeRecord w).imm20 =
      w := by
  simp only [decodeRecord, BitVec.extractLsb'_append_extractLsb'_eq_extractLsb', BitVec.extractLsb'_eq_self]

/-- Masking a word to its op and mode, and to some bits of its ra and low fields, packs the masked fields (rule R70). -/
theorem and_packWord (w : Word) (ra : BitVec 4) (low : BitVec 20) :
    w &&& packWord (BitVec.allOnes 5) (BitVec.allOnes 2) ra low =
      packWord (decodeRecord w).op (decodeRecord w).mode ((decodeRecord w).ra &&& ra) ((decodeRecord w).imm20 &&& low) := by
  have hmask (op : BitVec 5) (md : BitVec 2) (b : BitVec 1) (ra' : BitVec 4) (low' : BitVec 20) :
      (op ++ md ++ b ++ ra' ++ low') &&& (BitVec.allOnes 5 ++ BitVec.allOnes 2 ++ 0#1 ++ ra ++ low) =
        op ++ md ++ 0#1 ++ (ra' &&& ra) ++ (low' &&& low) := by
    simp only [BitVec.and_append, BitVec.and_allOnes, BitVec.and_zero]
  conv_lhs => rw [← word_eq_fields w]
  exact hmask _ _ _ _ _

/-- The rb field is bits 19:16 of imm20 (rule R70). -/
theorem decodeRecord_rb (w : Word) : (decodeRecord w).rb = (decodeRecord w).imm20.extractLsb' 16 4 := by
  apply BitVec.eq_of_toNat_eq
  simp only [decodeRecord, extract_toNat, BitVec.extractLsb'_toNat, Nat.shiftRight_eq_div_pow]
  omega

/-- A field masked to its upper four bits is those bits, put back (rule R77). -/
theorem and_rbMask (x : BitVec 20) : x &&& 0xF0000#20 = x.extractLsb' 16 4 ++ 0#16 := by
  have hmask (hi : BitVec 4) (lo : BitVec 16) : (hi ++ lo) &&& (BitVec.allOnes 4 ++ 0#16) = hi ++ 0#16 := by
    rw [BitVec.and_append, BitVec.and_allOnes, BitVec.and_zero]
  have hx : x = x.extractLsb' 16 4 ++ x.extractLsb' 0 16 := by
    simp only [BitVec.extractLsb'_append_extractLsb'_eq_extractLsb', BitVec.extractLsb'_eq_self]
  conv_lhs => rw [hx]
  exact hmask _ _

/-- The operand of a word is written as the word's low bits, less those it ignores (rules R77, R91). -/
theorem operandBits_operandOf (w : Word) :
    operandBits (operandOf (decodeRecord w)) = (decodeRecord w).imm20 &&& operandMask (operandOf (decodeRecord w)) := by
  unfold operandOf
  split
  case h_1 | h_3 => exact (BitVec.and_allOnes).symm
  case h_2 | h_4 => simp only [operandBits, operandMask, fieldOfReg_regOfField, and_rbMask, decodeRecord_rb]

/-- An instruction read from a word is written with that word's fields, masked to the bits it uses (rules R76, R77). -/
theorem packWord_instrOf (m : Mnemonic) (w : Word) :
    packWord (decodeRecord w).op (decodeRecord w).mode (raBits (instrOf m (decodeRecord w)))
      (lowBits (instrOf m (decodeRecord w))) = w &&& usedBits (instrOf m (decodeRecord w)) := by
  cases m with
  | hlt | not =>
    simp only [instrOf, raBits, lowBits, usedBits, and_packWord, fieldOfReg_regOfField, BitVec.and_allOnes,
      BitVec.and_zero]
  | mov | ldr | str | add | adc | sub | sbc | cmp | lsl | lsr | asr | rol | ror | and | orr | eor =>
    simp only [instrOf, raBits, lowBits, usedBits, and_packWord, operandBits_operandOf, fieldOfReg_regOfField,
      BitVec.and_allOnes]
  | jmp | bcc | bcs | bpl | bmi | bne | beq | bvc | bvs =>
    simp only [instrOf, raBits, lowBits, usedBits, and_packWord, operandBits_operandOf, BitVec.and_zero]

/-- Settles O2: the decoded instruction has the word's op and mode, and packs the word's masked fields. -/
theorem decodedWordIsEncodedOnItsUsedBits : Obligations.DecodedWordIsEncodedOnItsUsedBits := by
  unfold Obligations.DecodedWordIsEncodedOnItsUsedBits
  intro num w i h
  obtain ⟨hi, hop, hmode⟩ := decodeWith_ok h
  calc encodeWith num i
      = packWord (decodeRecord w).op (decodeRecord w).mode (raBits i) (lowBits i) := by rw [encodeWith, hop, hmode]
    _ = w &&& usedBits i := by
      rw [hi]
      exact packWord_instrOf i.mnemonic w

/-- Settles O4: the nine words, each run through the decoder. -/
theorem writtenWordsDecode : Obligations.WrittenWordsDecode := by
  unfold Obligations.WrittenWordsDecode
  decide

end Sys2Proof

/-! PROOFS. Runs and the invariant: O16, O15, O18, O17, O19. Every instruction, and every fetched word under every
numbering, makes at most one of the updates `Writes` lists and then reports a status, so what those updates keep, every
step keeps. -/

namespace Sys2Proof.Machine

section Writes
variable {s t u : State}

/-- The execute phase always answers, with one of the listed updates and a status (rules R100, R105, R107). -/
theorem exec_writes (i : Instr) (s : State) : ∃ u st, Writes s u ∧ exec i s = .next (u.report st) := by
  rcases exec_answers i s with ⟨u, hu, hcompletes⟩ | hunsupported
  · exact ⟨u, .ok, hu, hcompletes⟩
  · exact ⟨s, _, .nothing, hunsupported⟩

/-- The run of a fetched word always answers: as its instruction does, or with InvalidOpcode and no update (R214). -/
theorem runFetchedWith_writes (num : Numbering) (s : State) :
    ∃ u st, Writes s u ∧ runFetchedWith num s = .next (u.report st) := by
  rcases runFetchedWith_cases num s with ⟨i, -, hexec⟩ | ⟨op, -, hraise⟩
  · rw [hexec]
    exact exec_writes i s
  · exact ⟨s, _, .nothing, hraise⟩

/-- No instruction moves the phase marker (rule R39). -/
theorem Writes.phase_eq (h : Writes s u) : u.phase = s.phase := by
  cases h <;> rfl

/-- A register write keeps bits 31:20 of every register zero (rule R22). -/
theorem slotsMasked_writeReg (h : s.slotsMasked) (r : Reg) (v : Val) : (s.writeReg r v).slotsMasked := by
  intro r'
  rw [slot_writeReg]
  split
  · exact zext32_toNat_lt v
  · exact h r'

/-- The holding register is no register an instruction can name (rule R24). -/
theorem slotsMasked_setIr (h : s.slotsMasked) (w : Word) : (s.setIr w).slotsMasked := by
  intro r
  rw [slot_setIr, if_neg (slotOf_ne_irSlot r)]
  exact h r

theorem slotsMasked_fetch (h : s.slotsMasked) : (fetch s).slotsMasked :=
  slotsMasked_writeReg (slotsMasked_setIr h _) pcReg _

/-- No instruction leaves a register with a bit above 19 (rule R22). -/
theorem Writes.slotsMasked (h : Writes s u) (hs : s.slotsMasked) : u.slotsMasked := by
  cases h with
  | nothing | flags _ | word _ _ | halted => exact hs
  | register r v => exact slotsMasked_writeReg hs r v
  | flagsAndRegister f r v => exact slotsMasked_writeReg (s := s.setFlags f) hs r v

/-- No instruction takes memory out of its canonical form (log 2). -/
theorem Writes.mem_wf (h : Writes s u) (hs : s.mem.wf = true) : u.mem.wf = true := by
  cases h with
  | nothing | flags _ | halted | register _ _ | flagsAndRegister _ _ _ => exact hs
  | word a w => exact write_wf hs a w

end Writes

/-- The run of a fetched word answers in the phase it was started in. -/
theorem runFetchedWith_next (num : Numbering) (s : State) :
    ∃ t, runFetchedWith num s = .next t ∧ t.phase = s.phase := by
  obtain ⟨u, st, hu, hrun⟩ := runFetchedWith_writes num s
  exact ⟨_, hrun, hu.phase_eq⟩

/-- Run between two steps, a fetched word leaves the invariant, under every numbering and whatever the status was. -/
theorem runFetchedWith_inv {num : Numbering} {s t : State} (hslots : s.slotsMasked) (hmem : s.mem.wf = true)
    (hphase : s.phase = .idle) (h : runFetchedWith num s = .next t) : Inv t := by
  have hlegal := runFetchedWith_status_legal h
  obtain ⟨u, st, hu, hrun⟩ := runFetchedWith_writes num s
  obtain rfl := next_inj.mp (hrun.symm.trans h)
  exact ⟨hu.slotsMasked hslots, hu.mem_wf hmem, hlegal, fun _ => hu.phase_eq.trans hphase⟩

/-- Settles O16: a halted step changes the status alone; a Running one runs the fetched word between two steps. -/
theorem everyStepKeepsTheInvariant : Obligations.EveryStepKeepsTheInvariant := by
  unfold Obligations.EveryStepKeepsTheInvariant
  rintro s t ⟨hslots, hmem, -, hidle⟩ h
  rcases step_cases h with ⟨-, rfl⟩ | ⟨-, hphase, hrun⟩
  · exact ⟨hslots, hmem, rfl, hidle⟩
  · exact runFetchedWith_inv (slotsMasked_fetch hslots) hmem hphase hrun

/-- Between two steps a step answers a state between two steps, Halted or Running (rules R107, R109, R216). -/
theorem step_next_of_idle {s : State} (h : s.phase = .idle) : ∃ t, step s = .next t ∧ t.phase = .idle := by
  cases hr : s.running with
  | false => exact ⟨_, step_halted hr, h⟩
  | true =>
    obtain ⟨t, hrun, hphase⟩ := runFetchedWith_next opcodeOf (fetch s)
    exact ⟨t, (step_running_idle hr h).trans hrun, hphase.trans h⟩

/-- Settles O15, by induction on the number of steps. -/
theorem everyRunGoesOn : Obligations.EveryRunGoesOn := by
  unfold Obligations.EveryRunGoesOn
  intro k
  induction k with
  | zero => exact fun s hs => ⟨s, run_zero s, hs⟩
  | succ k ih =>
    intro s hs
    obtain ⟨t, hstep, ht⟩ := step_next_of_idle hs
    rw [run_succ hstep]
    exact ih t ht

/-- Settles O17: the registers of the reset state are 0, its status is `ok` and it is Running. -/
theorem resetStateMeetsTheInvariant : Obligations.ResetStateMeetsTheInvariant := by
  unfold Obligations.ResetStateMeetsTheInvariant
  have hslots : State.reset.slotsMasked := by decide
  exact ⟨⟨hslots, reset_mem_wf, rfl, fun _ => rfl⟩, fun s hs => ⟨hslots, hs, rfl, fun _ => rfl⟩⟩

/-- A host write of a word keeps the invariant. -/
theorem inv_writeMem {s : State} (h : Inv s) (a : Val) (w : Word) : Inv (s.writeMem a w) := by
  obtain ⟨hslots, hmem, hlegal, hidle⟩ := h
  exact ⟨hslots, write_wf hmem a w, hlegal, hidle⟩

theorem inv_loadWords {s : State} (h : Inv s) (a : Val) (ws : List Word) : Inv (loadWords s a ws) := by
  induction ws generalizing s a with
  | nil => exact h
  | cons w rest ih => exact ih (inv_writeMem h a w) _

/-- Every slot but the holding register is one an instruction can name (rules R20, R21). -/
theorem exists_slotOf {i : Slot} (h : i ≠ irSlot) : ∃ r, i = slotOf r := by
  have hlt : i.val < 16 := by
    have hne : i.val ≠ 16 := fun e => h (Fin.ext e)
    omega
  exact ⟨⟨i.val, hlt⟩, rfl⟩

/-- Settles O18: each command by what it does when it answers. -/
theorem hostCommandsKeepTheInvariant : Obligations.HostCommandsKeepTheInvariant := by
  unfold Obligations.HostCommandsKeepTheInvariant
  intro s t hinv
  have ⟨hslots, hmem, hlegal, hidle⟩ := hinv
  refine ⟨fun a w h => ?writeMem, fun a ws h => ?load, fun i w h => ?writeSlot, fun h => ?fetch, fun d h => ?decode,
    fun h => ?execute⟩
  case writeMem =>
    obtain ⟨-, rfl⟩ := hostWriteMem_next h
    exact inv_writeMem hinv a w
  case load =>
    obtain ⟨-, rfl⟩ := hostLoad_next h
    exact inv_loadWords hinv a ws
  case writeSlot =>
    obtain ⟨hi, -, rfl⟩ := hostWriteSlot_next h
    obtain ⟨r, rfl⟩ := exists_slotOf hi
    exact ⟨slotsMasked_writeReg hslots r (low20 w), hmem, hlegal, hidle⟩
  case fetch =>
    obtain ⟨hr, -, rfl⟩ := hostFetch_next h
    exact ⟨slotsMasked_fetch hslots, hmem, hlegal, fun hh => absurd (hr.symm.trans hh) (by decide)⟩
  case decode =>
    obtain ⟨hr, -, rfl, -⟩ := hostDecode_next h
    exact ⟨hslots, hmem, hlegal, fun hh => absurd (hr.symm.trans hh) (by decide)⟩
  case execute =>
    obtain ⟨-, -, hrun⟩ := hostExecuteWith_next h
    exact runFetchedWith_inv (s := s.setPhase .idle) hslots hmem rfl hrun

/-- A run that ends well takes no step in a halted core, and in a Running one a step without an error to a state that
ends well (rule R113). -/
theorem endsWell_succ {k : Nat} {s : State} (hr : s.running = true) (h : endsWell (k + 1) s = true) :
    ∃ t, step s = .next t ∧ t.status.isError = false ∧ endsWell k t = true := by
  rw [endsWell, if_pos hr] at h
  split at h
  · rename_i t hstep
    rw [Bool.and_eq_true, Bool.not_eq_true'] at h
    exact ⟨t, hstep, h⟩
  · cases h
  · cases h

/-- A halted core meets no error and stays halted (rule R109). -/
theorem halted_meets_no_error {s : State} (hr : s.running = false) {j : Nat} {t : State} (hj : 1 ≤ j)
    (h : Sys2Proof.core.run j s = .next t) : t.status.isError = false := by
  obtain ⟨j, rfl⟩ := Nat.exists_eq_add_of_le' hj
  rw [← run_unique (run_of_halted hr j) h, report_status]
  rfl

theorem halted_run_halted {s : State} (hr : s.running = false) (k : Nat) :
    ∃ t, Sys2Proof.core.run k s = .next t ∧ t.running = false := by
  cases k with
  | zero => exact ⟨s, run_zero s, hr⟩
  | succ k => exact ⟨_, run_of_halted hr k, hr⟩

/-- Settles O19, by induction on the bound: the first step is no error and the state after it ends well. -/
theorem runThatEndsWellMeetsNoError : Obligations.RunThatEndsWellMeetsNoError := by
  unfold Obligations.RunThatEndsWellMeetsNoError
  intro k
  induction k with
  | zero =>
    intro s h
    have hr : s.running = false := by simpa [endsWell] using h
    exact ⟨halted_run_halted hr 0, fun j t hj ht => halted_meets_no_error hr hj ht⟩
  | succ k ih =>
    intro s h
    cases hr : s.running with
    | false => exact ⟨halted_run_halted hr (k + 1), fun j t hj ht => halted_meets_no_error hr hj ht⟩
    | true =>
      obtain ⟨u, hstep, hok, hu⟩ := endsWell_succ hr h
      obtain ⟨hends, hclean⟩ := ih u hu
      refine ⟨by rwa [run_succ hstep], fun j t hj ht => ?_⟩
      obtain ⟨j, rfl⟩ := Nat.exists_eq_add_of_le' hj
      rw [run_succ hstep] at ht
      cases j with
      | zero => rwa [← next_inj.mp ht]
      | succ j => exact hclean (j + 1) t (by omega) ht

end Sys2Proof.Machine

/-! PROOFS. What no instruction changes: O27, O28, O29, and the canonical form of memory, O30. `KeepsRow` is the frame that
the tables of rules R25 and R29 and rule R56 give one instruction; each meaning is followed through the mode check once. -/

namespace Sys2Proof.Machine

/-- What an instruction's rows leave unchanged from `s` to `t`: the slots and the flags outside them, every word but the one
a STR addresses, and the phase marker (rules R25, R29, R39, R56). -/
structure KeepsRow (i : Instr) (s t : State) : Prop where
  slots : keepsSlotsBut (slotsWritten i) s t
  flags : (flagRow i s).respected s.ccr t.ccr
  memory : ∀ a, (∀ ra o, i = .str ra o → a ≠ operandValue s o) → t.readMem a = s.readMem a
  phase : t.phase = s.phase

/-- The outcome is a next state that keeps what the instruction's rows leave unchanged. -/
def RowKept (i : Instr) (s : State) (out : StepOutcome) : Prop := ∃ t, out = .next t ∧ KeepsRow i s t

section RowKept
variable {i : Instr} {s : State} {m : Mnemonic} {md : Mode} {o : Operand} {r : Reg} {v : Val} {res : AluResult}

/-- Every row allows that no flag changes. -/
theorem respected_refl (row : FlagRow) (f : Flags) : row.respected f f := by
  cases row <;> simp [FlagRow.respected]

theorem withMode_rowKept {run : StepOutcome} (h : RowKept i s run) : RowKept i s (withMode m md s run) := by
  rcases withMode_cases m md s run with ⟨-, e⟩ | ⟨-, e⟩
  · rwa [e]
  · exact ⟨_, e, fun _ _ => rfl, respected_refl _ _, fun _ _ => rfl, rfl⟩

/-- The resolver hands on the operand's value and no other (rule R85). -/
theorem withOperand_rowKept {run : Val → StepOutcome} (h : RowKept i s (run (operandValue s o))) :
    RowKept i s (withOperand m o s run) :=
  withMode_rowKept h

/-- An instruction that completes with no update, or with an update of the running bit. -/
theorem finish_rowKept {u : State} (hregs : u.regs = s.regs) (hccr : (flagRow i s).respected s.ccr u.ccr)
    (hmem : u.mem = s.mem) (hphase : u.phase = s.phase) : RowKept i s (finish u) := by
  refine ⟨_, finish_eq u, fun j _ => ?_, hccr, fun a _ => ?_, hphase⟩
  · exact congrArg (fun regs : Vector Word 17 => regs[j.val]) hregs
  · exact congrArg (fun mem : Memory => mem.read a) hmem

/-- An instruction whose one destination is `r` writes it and the flags its row names. -/
theorem commitAlu_rowKept (hslots : slotsWritten i = [slotOf r]) (hflags : (flagRow i s).respected s.ccr res.flags) :
    RowKept i s (commitAlu r res s) := by
  refine ⟨_, commitAlu_eq r res s, ?_, hflags, fun _ _ => rfl, rfl⟩
  rw [hslots]
  exact fun j hj => slot_writeReg_other (s.setFlags res.flags) j r res.res (List.ne_of_not_mem_cons hj)

theorem finish_writeReg_rowKept (hslots : slotsWritten i = [slotOf r]) : RowKept i s (finish (s.writeReg r v)) := by
  refine ⟨_, finish_eq _, ?_, respected_refl _ _, fun _ _ => rfl, rfl⟩
  rw [hslots]
  exact fun j hj => slot_writeReg_other s j r v (List.ne_of_not_mem_cons hj)

theorem branchIf_rowKept {taken : Bool} (hslots : slotsWritten i = [slotOf pcReg]) :
    RowKept i s (branchIf m taken o s) := by
  refine withOperand_rowKept ?_
  cases taken with
  | true => exact finish_writeReg_rowKept hslots
  | false => exact finish_rowKept rfl (respected_refl _ _) rfl rfl

/-- A shift by 0 keeps C (rule R29). -/
theorem shiftFlags_respected (p : Config.Params) (old : Flags) (a res b : Val) (carry : Bool) :
    (if b = 0#20 then FlagRow.keepsC else .writesAll).respected old (shiftFlags p old a res b.toNat carry) := by
  split
  · rename_i hb
    simp [FlagRow.respected, shiftFlags, hb]
  · trivial

end RowKept

/-- Every one of the 27 instructions, in every mode, keeps what its rows leave unchanged. -/
theorem exec_rowKept (i : Instr) (s : State) : RowKept i s (exec i s) := by
  cases i with
  | hlt m =>
    simp only [exec, execHlt]
    exact withMode_rowKept (finish_rowKept (u := s.halt) rfl rfl rfl rfl)
  | not ra m =>
    simp only [exec, execNot]
    exact withMode_rowKept (commitAlu_rowKept rfl ⟨rfl, rfl⟩)
  | mov ra o | ldr ra o | jmp o =>
    simp only [exec, execMov, execLdr, execJmp]
    refine withOperand_rowKept ?_
    exact finish_writeReg_rowKept rfl
  | str ra o =>
    simp only [exec, execStr]
    refine withOperand_rowKept ⟨_, finish_eq _, fun _ _ => rfl, rfl, fun a ha => ?_, rfl⟩
    exact readMem_writeMem_other s (ha ra o rfl) _
  | cmp ra o =>
    simp only [exec, execCmp]
    refine withOperand_rowKept ?_
    exact finish_rowKept rfl trivial rfl rfl
  | add ra o | adc ra o | sub ra o | sbc ra o =>
    simp only [exec, execAdd, execAdc, execSub, execSbc]
    refine withOperand_rowKept ?_
    exact commitAlu_rowKept rfl trivial
  | and ra o | orr ra o | eor ra o =>
    simp only [exec, execAnd, execOrr, execEor]
    refine withOperand_rowKept ?_
    exact commitAlu_rowKept rfl ⟨rfl, rfl⟩
  | lsl ra o | lsr ra o | asr ra o =>
    simp only [exec, execLsl, execLsr, execAsr]
    refine withOperand_rowKept ?_
    exact commitAlu_rowKept rfl (shiftFlags_respected _ _ _ _ _ _)
  | rol ra o | ror ra o =>
    simp only [exec, execRol, execRor]
    refine withOperand_rowKept ?_
    split
    · rename_i hb
      exact finish_rowKept rfl (by simp [flagRow, hb, FlagRow.respected, rotateZeroFlags, specParams]) rfl rfl
    · rename_i hb
      exact commitAlu_rowKept rfl (by simp [flagRow, hb, FlagRow.respected])
  | bcc o | bcs o | bpl o | bmi o | bne o | beq o | bvc o | bvs o => exact branchIf_rowKept rfl

theorem exec_keepsRow {i : Instr} {s t : State} (h : exec i s = .next t) : KeepsRow i s t := by
  obtain ⟨u, hu, hrow⟩ := exec_rowKept i s
  obtain rfl := next_inj.mp (hu.symm.trans h)
  exact hrow

/-- Slot 16 is in no row (rules R24, R25). -/
theorem irSlot_notMem_slotsWritten (i : Instr) : irSlot ∉ slotsWritten i := by
  cases i <;> simp [slotsWritten]

/-- No instruction writes the holding register (rule R24). -/
theorem exec_ir {i : Instr} {s t : State} (h : exec i s = .next t) : t.ir = s.ir :=
  (exec_keepsRow h).slots irSlot (irSlot_notMem_slotsWritten i)

/-- Settles O27: the slots of `KeepsRow`, of which slot 16 is never one. -/
theorem onlyDestinationSlotsAreWritten : Obligations.OnlyDestinationSlotsAreWritten := by
  unfold Obligations.OnlyDestinationSlotsAreWritten
  exact fun i s t h => ⟨(exec_keepsRow h).slots, exec_ir h, (exec_keepsRow h).phase⟩

/-- Settles O28: the flags of `KeepsRow`. -/
theorem flagsOutsideTheRowAreKept : Obligations.FlagsOutsideTheRowAreKept := by
  unfold Obligations.FlagsOutsideTheRowAreKept
  exact fun i s t h => (exec_keepsRow h).flags

/-- Settles O29: the memory of `KeepsRow`. -/
theorem onlyStrChangesMemory : Obligations.OnlyStrChangesMemory := by
  unfold Obligations.OnlyStrChangesMemory
  exact fun i s t h => (exec_keepsRow h).memory

/-! The canonical form of memory (log 2). -/

/-- A canonical list's first cell: it is not below the bound, its word is not the background, the rest rises above it. -/
theorem cellsFrom_cons {lo a : Nat} {w : Word} {rest : List MemCell} :
    cellsFrom lo ((a, w) :: rest) = true ↔
      lo ≤ a ∧ a < memWords ∧ w ≠ Memory.background ∧ cellsFrom (a + 1) rest = true := by
  simp only [cellsFrom, Bool.and_eq_true, decide_eq_true_eq, and_assoc]

theorem lookupCell_cons_same (a : Nat) (w : Word) (rest : List MemCell) : lookupCell ((a, w) :: rest) a = w :=
  if_pos rfl

theorem lookupCell_cons_other {a b : Nat} (h : a ≠ b) (w : Word) (rest : List MemCell) :
    lookupCell ((a, w) :: rest) b = lookupCell rest b :=
  if_neg h

/-- A listed word does not read as the background, so a canonical list that reads alike does not start above it. -/
theorem start_le_of_reads_alike {lo a b : Nat} {w : Word} {rest l : List MemCell}
    (hcell : cellsFrom lo ((a, w) :: rest) = true) (hl : cellsFrom b l = true)
    (h : ∀ k < memWords, lookupCell ((a, w) :: rest) k = lookupCell l k) : b ≤ a := by
  obtain ⟨-, ha, hw, -⟩ := cellsFrom_cons.mp hcell
  by_contra hlt
  have hread := h a ha
  rw [lookupCell_cons_same, lookupCell_below hl (by omega)] at hread
  exact hw hread

/-- Canonical lists that read alike at every index have the same first cell, and tails that read alike. -/
theorem head_eq_of_reads_alike {lo a b : Nat} {w x : Word} {rest rest' : List MemCell}
    (hl : cellsFrom lo ((a, w) :: rest) = true) (hl' : cellsFrom lo ((b, x) :: rest') = true)
    (h : ∀ k < memWords, lookupCell ((a, w) :: rest) k = lookupCell ((b, x) :: rest') k) :
    a = b ∧ w = x ∧ ∀ k < memWords, lookupCell rest k = lookupCell rest' k := by
  obtain ⟨-, ha, hw, hrest⟩ := cellsFrom_cons.mp hl
  obtain ⟨-, hb, hx, hrest'⟩ := cellsFrom_cons.mp hl'
  have hba : b ≤ a := start_le_of_reads_alike hl (cellsFrom_cons.mpr ⟨le_rfl, hb, hx, hrest'⟩) h
  have hab : a ≤ b := start_le_of_reads_alike hl' (cellsFrom_cons.mpr ⟨le_rfl, ha, hw, hrest⟩) fun k hk => (h k hk).symm
  obtain rfl : a = b := le_antisymm hab hba
  refine ⟨rfl, ?_, fun k hk => ?_⟩
  · simpa only [lookupCell_cons_same] using h a ha
  · by_cases hka : a = k
    · rw [lookupCell_below hrest (by omega), lookupCell_below hrest' (by omega)]
    · simpa only [lookupCell_cons_other hka] using h k hk

/-- A canonical list that reads as the background everywhere lists nothing. -/
theorem eq_nil_of_reads_background {lo : Nat} {l : List MemCell} (hl : cellsFrom lo l = true)
    (h : ∀ k < memWords, lookupCell l k = Memory.background) : l = [] := by
  cases l with
  | nil => rfl
  | cons c rest =>
    obtain ⟨-, ha, hw, -⟩ := cellsFrom_cons.mp hl
    exact absurd ((lookupCell_cons_same c.1 c.2 rest).symm.trans (h c.1 ha)) hw

/-- Canonical lists that read alike at every index are equal, by induction on the cells. -/
theorem cells_eq_of_reads_alike {lo : Nat} {l l' : List MemCell} (hl : cellsFrom lo l = true)
    (hl' : cellsFrom lo l' = true) (h : ∀ k < memWords, lookupCell l k = lookupCell l' k) : l = l' := by
  induction l generalizing lo l' with
  | nil => exact (eq_nil_of_reads_background hl' fun k hk => (h k hk).symm).symm
  | cons c rest ih =>
    cases l' with
    | nil => exact eq_nil_of_reads_background hl h
    | cons c' rest' =>
      obtain ⟨a, w⟩ := c
      obtain ⟨b, x⟩ := c'
      obtain ⟨rfl, rfl, htails⟩ := head_eq_of_reads_alike hl hl' h
      obtain ⟨-, -, -, hrest⟩ := cellsFrom_cons.mp hl
      obtain ⟨-, -, -, hrest'⟩ := cellsFrom_cons.mp hl'
      rw [ih hrest hrest' htails]

/-- Settles O30: an index below 2^20 is an address, so the two lists of cells read alike. -/
theorem equalReadsMakeEqualMemories : Obligations.EqualReadsMakeEqualMemories := by
  unfold Obligations.EqualReadsMakeEqualMemories
  intro m m' hm hm' h
  have hcells : m.cells = m'.cells := by
    refine cells_eq_of_reads_alike hm hm' fun k hk => ?_
    have hk' : (BitVec.ofNat 20 k).toNat = k := (BitVec.toNat_ofNat k 20).trans (Nat.mod_eq_of_lt hk)
    have hread := h (BitVec.ofNat 20 k)
    rwa [Memory.read, Memory.read, hk'] at hread
  cases m
  cases m'
  exact congrArg Memory.mk hcells

end Sys2Proof.Machine

/-! PROOFS. One step under every numbering, and its errors: O5, O6, O7, O8, O55, with the order of the sub-phases, O21, O22,
and the Halted core, O10. A fetched word runs as its instruction or raises InvalidOpcode, in the state after fetch; either
way an error's record names the word fetched and its address. -/

namespace Sys2Proof

/-- The opcode table's order is the default numbering's (decision D1): the number of a mnemonic is its place. -/
theorem all_getElem_opcodeOf (m : Mnemonic) : Mnemonic.all[(opcodeOf m).toNat]? = some m := by
  cases m <;> rfl

theorem opcodeOf_injective : Function.Injective opcodeOf := by
  intro m m' h
  have hplace := all_getElem_opcodeOf m
  rw [h, all_getElem_opcodeOf] at hplace
  exact (Option.some.inj hplace).symm

/-- The default numbering assigns 0 .. 26 and no other value (rules R72, R73). -/
theorem opcodeOf_toNat_lt (m : Mnemonic) : (opcodeOf m).toNat < 27 := by
  cases m <;> decide

theorem exists_opcodeOf_eq {op : BitVec 5} (h : op.toNat < 27) : ∃ m, opcodeOf m = op := by
  have hall : ∀ op : BitVec 5, op.toNat < 27 → ∃ m ∈ Mnemonic.all, opcodeOf m = op := by decide
  obtain ⟨m, -, hm⟩ := hall op h
  exact ⟨m, hm⟩

/-- The op field is the upper five bits of the word (rule R70). -/
theorem decodeRecord_op_toNat (w : Word) : (decodeRecord w).op.toNat = w.toNat / 2 ^ 27 := by
  have hw := w.isLt
  simp only [decodeRecord, extract_toNat]
  omega

/-- The opcode permits the mode exactly when the instruction is well formed (rules R75, R84, R89). -/
theorem permits_eq_wellFormed : ∀ i : Instr, Machine.permits i.mnemonic i.mode = i.wellFormed
  | .hlt m => Laws.ModeTable.hlt m
  | .mov ra o => Laws.ModeTable.mov ra o
  | .ldr ra o => Laws.ModeTable.ldr ra o
  | .str ra o => Laws.ModeTable.str ra o
  | .add ra o => Laws.ModeTable.add ra o
  | .adc ra o => Laws.ModeTable.adc ra o
  | .sub ra o => Laws.ModeTable.sub ra o
  | .sbc ra o => Laws.ModeTable.sbc ra o
  | .cmp ra o => Laws.ModeTable.cmp ra o
  | .lsl ra o => Laws.ModeTable.lsl ra o
  | .lsr ra o => Laws.ModeTable.lsr ra o
  | .asr ra o => Laws.ModeTable.asr ra o
  | .rol ra o => Laws.ModeTable.rol ra o
  | .ror ra o => Laws.ModeTable.ror ra o
  | .and ra o => Laws.ModeTable.and ra o
  | .orr ra o => Laws.ModeTable.orr ra o
  | .eor ra o => Laws.ModeTable.eor ra o
  | .not ra m => Laws.ModeTable.not ra m
  | .jmp o => Laws.ModeTable.jmp o
  | .bcc o => Laws.ModeTable.bcc o
  | .bcs o => Laws.ModeTable.bcs o
  | .bpl o => Laws.ModeTable.bpl o
  | .bmi o => Laws.ModeTable.bmi o
  | .bne o => Laws.ModeTable.bne o
  | .beq o => Laws.ModeTable.beq o
  | .bvc o => Laws.ModeTable.bvc o
  | .bvs o => Laws.ModeTable.bvs o

end Sys2Proof

namespace Sys2Proof.Machine

/-- Every instruction in a mode its opcode does not permit raises UnsupportedAddressingMode (rules R84, R215). -/
theorem exec_illFormed {i : Instr} (h : i.wellFormed = false) (s : State) :
    exec i s = .next (s.report (.error (errorRecord (unsupportedMode s) s))) := by
  have hmode : permits i.mnemonic i.mode = false := (permits_eq_wellFormed i).trans h
  -- every meaning opens with the mode check of its own mnemonic
  cases i <;> exact withMode_forbidden hmode s _

/-- Settles O7: a numbering that decoded the held word gives the raw fields of its record. -/
theorem forbiddenModeRaisesUnsupportedAddressingMode : Obligations.ForbiddenModeRaisesUnsupportedAddressingMode := by
  unfold Obligations.ForbiddenModeRaisesUnsupportedAddressingMode
  intro i s h
  refine ⟨_, exec_illFormed h s, rfl, fun num hnum => ?_⟩
  obtain ⟨-, hop, hmode⟩ := decodeWith_ok hnum
  rw [hop, hmode]
  rfl

section Step
variable (s : State) {num : Numbering} {i : Instr} {k : ErrorKind}

theorem fetch_pc_toNat : (fetch s).pc.toNat = (s.pc.toNat + 1) % 2 ^ 20 := by
  rw [fetch_pc]
  exact_mod_cast trunc20_natCast_toNat (s.pc.toNat + 1)

/-- Fetch makes its two writes and no other (rules R101, R107). -/
theorem fetch_fetchOnly : FetchOnly s (fetch s) where
  ir := fetch_ir s
  pc := fetch_pc_toNat s
  slots j hj := by
    obtain ⟨h15, h16⟩ : j ≠ slotOf pcReg ∧ j ≠ irSlot := by simpa using hj
    exact fetch_slot_other s h15 h16
  flags := rfl
  memory := rfl
  control := ⟨rfl, rfl⟩

/-- A report after fetch writes nothing more. -/
theorem fetch_report_fetchOnly (st : Status) : FetchOnly s ((fetch s).report st) := by
  obtain ⟨hir, hpc, hslots, hflags, hmem, hcontrol⟩ := fetch_fetchOnly s
  exact ⟨hir, hpc, hslots, hflags, hmem, hcontrol⟩

/-- An error raised after fetch records the word at the old `pc` and that address (rule R211). -/
theorem raise_fetch (k : ErrorKind) : raise k (fetch s) = .next ((fetch s).report (.error ⟨k, s.readMem s.pc, s.pc⟩)) := by
  rw [raise_eq, errorRecord_fetch]

variable {s}

theorem stepWith_ok (hr : s.running = true) (hp : s.phase = .idle) (h : decodeWith num (s.readMem s.pc) = .ok i) :
    stepWith num specParams s = exec i (fetch s) := by
  rw [stepWith_running_idle num hr hp, runFetchedWith_ok (by rwa [fetch_ir])]

/-- An `op` that the numbering does not assign raises InvalidOpcode, whatever the mode (rules R103, R214). -/
theorem stepWith_unassigned (hr : s.running = true) (hp : s.phase = .idle)
    (h : ∀ m, num m ≠ (decodeRecord (s.readMem s.pc)).op) :
    stepWith num specParams s = .next ((fetch s).report
      (.error ⟨.invalidOpcode (decodeRecord (s.readMem s.pc)).op, s.readMem s.pc, s.pc⟩)) := by
  have hdecode : decodeWith num (fetch s).ir = .error (.unassignedOpcode (decodeRecord (s.readMem s.pc)).op) := by
    rw [fetch_ir]
    exact decodeWith_of_unassigned h
  rw [stepWith_running_idle num hr hp, runFetchedWith_unassigned hdecode, raise_fetch]

/-- A word that decodes to an instruction in a mode its opcode does not permit raises UnsupportedAddressingMode with the
instruction's own number and mode code (rules R9, R211, R215). -/
theorem stepWith_illFormed (hr : s.running = true) (hp : s.phase = .idle)
    (h : decodeWith num (s.readMem s.pc) = .ok i) (hi : i.wellFormed = false) :
    stepWith num specParams s = .next ((fetch s).report
      (.error ⟨.unsupportedAddressingMode (num i.mnemonic) (codeOfMode i.mode), s.readMem s.pc, s.pc⟩)) := by
  obtain ⟨-, hop, hmode⟩ := decodeWith_ok h
  rw [stepWith_ok hr hp h, exec_illFormed hi, errorRecord_fetch, unsupportedMode, fetch_ir, hop, hmode]

end Step

/-- Settles O5, at the default numbering. -/
theorem stepRunsTheDecodedInstruction : Obligations.StepRunsTheDecodedInstruction := by
  unfold Obligations.StepRunsTheDecodedInstruction
  exact fun s i hr hp h => ⟨stepWith_ok hr hp h, fetch_fetchOnly s⟩

/-- Settles O6: the default numbering assigns exactly the values below 27. -/
theorem unassignedOpcodeRaisesInvalidOpcode : Obligations.UnassignedOpcodeRaisesInvalidOpcode := by
  unfold Obligations.UnassignedOpcodeRaisesInvalidOpcode
  refine fun s => ⟨fun hop hr hp => ?_, fun hop => ?_⟩
  · have hnone : ∀ m, opcodeOf m ≠ (decodeRecord (s.readMem s.pc)).op := by
      intro m hm
      have hlt := opcodeOf_toNat_lt m
      rw [hm, decodeRecord_op_toNat] at hlt
      omega
    exact ⟨_, stepWith_unassigned hr hp hnone, fetch_report_fetchOnly s _, rfl⟩
  · rw [← decodeRecord_op_toNat] at hop
    obtain ⟨m, hm⟩ := exists_opcodeOf_eq hop
    exact ⟨_, decodeWith_of_op opcodeOf_injective hm⟩

/-- The two kinds of error an instruction can raise, with the raw fields of its word (rules R211, R214, R215). -/
def RaisedKind (w : Word) (k : ErrorKind) : Prop :=
  k = .invalidOpcode (decodeRecord w).op ∨ k = .unsupportedAddressingMode (decodeRecord w).op (decodeRecord w).mode

/-- The run of a fetched word reports an error only by `raise`, with one of the two kinds (rules R210, R212). -/
theorem runFetchedWith_error {num : Numbering} {s t : State} {e : ErrorRecord} (h : runFetchedWith num s = .next t)
    (he : t.status = .error e) : ∃ k, RaisedKind s.ir k ∧ raise k s = .next t := by
  rcases runFetchedWith_cases num s with ⟨i, -, hexec⟩ | ⟨op, hdecode, hraise⟩
  · rw [hexec] at h
    rcases exec_answers i s with ⟨u, -, hcompletes⟩ | hunsupported
    · rw [hcompletes, next_inj] at h
      rw [← h, report_status] at he
      cases he
    · exact ⟨_, .inr rfl, hunsupported.symm.trans h⟩
  · obtain ⟨hop, -⟩ := decodeWith_error hdecode
    cases hop
    exact ⟨_, .inl rfl, hraise.symm.trans h⟩

/-- A step that reports an error is fetch and a report (rules R107, R210): the core is Running, and the record holds the
word fetched, its address and one of the two kinds. -/
theorem step_error {s t : State} {e : ErrorRecord} (h : step s = .next t) (he : t.status = .error e) :
    s.running = true ∧ t = (fetch s).report (.error e) ∧
      ∃ k, RaisedKind (s.readMem s.pc) k ∧ e = ⟨k, s.readMem s.pc, s.pc⟩ := by
  rcases step_cases h with ⟨-, rfl⟩ | ⟨hr, -, hrun⟩
  · cases he
  · obtain ⟨k, hk, hraise⟩ := runFetchedWith_error hrun he
    rw [raise_fetch, next_inj] at hraise
    rw [fetch_ir] at hk
    subst hraise
    cases he
    exact ⟨hr, rfl, k, hk, rfl⟩

theorem errorPort_of_error {t : State} {e : ErrorRecord} (h : t.status = .error e) : errorPort t = some e := by
  simp [errorPort, h]

/-- Settles O8: the record by `step_error`, the codes by the kind (rule R211). -/
theorem errorStepCommitsFetchAlone : Obligations.ErrorStepCommitsFetchAlone := by
  unfold Obligations.ErrorStepCommitsFetchAlone
  refine fun s t h => ⟨fun e he => ?_, fun hok => ?_, fun hhalted => ?_⟩
  · obtain ⟨hr, ht, k, hk, rfl⟩ := step_error h he
    have hfetch : FetchOnly s t := ht ▸ fetch_report_fetchOnly s _
    refine ⟨hfetch, hfetch.control.1.trans hr, rfl, rfl, errorPort_of_error he, ?_⟩
    rcases hk with rfl | rfl
    · exact .inl ⟨rfl, by rw [he]; rfl⟩
    · exact .inr ⟨rfl, by rw [he]; rfl⟩
  · simp [errorPort, errorCode, hok]
  · simp [errorPort, hhalted]

/-! The sub-phases. -/

section SubPhases
variable {s : State} {ph : Phase}

/-- A sub-phase in its phase on a Running core runs (rule R110). -/
theorem inPhase_runs {α : Type} (hr : s.running = true) (hp : s.phase = ph) (run : Host.Outcome α Fault Refusal) :
    inPhase ph s run = run := by
  simp [inPhase, hr, hp]

theorem inPhase_halted {α : Type} (hr : s.running = false) (run : Host.Outcome α Fault Refusal) :
    inPhase ph s run = .refused .subPhaseWhileHalted := by
  simp [inPhase, hr]

theorem inPhase_outOfOrder {α : Type} (hr : s.running = true) (hp : s.phase ≠ ph)
    (run : Host.Outcome α Fault Refusal) : inPhase ph s run = .refused .commandOutOfOrder := by
  simp [inPhase, hr, hp]

/-- In Running, the three sub-phases in order answer, hand out the fetched word's record and have the effect of one step,
under every numbering (rule R111). -/
theorem subPhases_eq_stepWith (num : Numbering) (hr : s.running = true) (hp : s.phase = .idle) :
    ∃ u v, hostFetch s = .next u ∧ hostDecode u = .next (v, decodeRecord (s.readMem s.pc)) ∧
      hostExecuteWith num v = stepWith num specParams s := by
  refine ⟨(fetch s).setPhase .fetched, (fetch s).setPhase .decoded, inPhase_runs hr hp _, ?_, ?_⟩
  · rw [← fetch_ir s]
    exact inPhase_runs (s := (fetch s).setPhase .fetched) hr rfl _
  · have hidle : ((fetch s).setPhase .decoded).setPhase .idle = fetch s :=
      state_ext (fun _ => rfl) rfl rfl rfl hp.symm rfl
    rw [stepWith_running_idle num hr hp, ← hidle]
    exact inPhase_runs (s := (fetch s).setPhase .decoded) hr rfl _

end SubPhases

/-- Settles O21, at the default numbering. -/
theorem subPhasesInOrderAreOneStep : Obligations.SubPhasesInOrderAreOneStep := by
  unfold Obligations.SubPhasesInOrderAreOneStep
  exact fun s hr hp => subPhases_eq_stepWith opcodeOf hr hp

/-- Settles O55: each clause is a lemma about `stepWith` at the numbering. -/
theorem stepFollowsEveryNumbering : Obligations.StepFollowsEveryNumbering := by
  unfold Obligations.StepFollowsEveryNumbering
  intro num s hr hp
  refine ⟨fun i hi => ⟨stepWith_ok hr hp hi, fetch_fetchOnly s, fun hill => ?_⟩, fun m hnum hm => ?_, fun hnone => ?_,
    subPhases_eq_stepWith num hr hp, rfl⟩
  · exact ⟨_, stepWith_illFormed hr hp hi hill, fetch_report_fetchOnly s _, rfl⟩
  · exact ⟨_, decodeWith_of_op hnum hm, instrOf_mnemonic m _⟩
  · exact ⟨_, stepWith_unassigned hr hp hnone, fetch_report_fetchOnly s _, rfl⟩

/-- Settles O22: the sub-phases by `inPhase`, the host's writes by their own check of the phase. -/
theorem commandsOutOfOrderAreRefused : Obligations.CommandsOutOfOrderAreRefused := by
  unfold Obligations.CommandsOutOfOrderAreRefused
  refine fun s => ⟨fun hr => ?halted, fun hp a w ws r => ?hostWrites, fun hr => ?running⟩
  case halted => exact ⟨inPhase_halted hr _, inPhase_halted hr _, inPhase_halted hr _⟩
  case hostWrites => exact ⟨if_neg hp, if_neg hp, (if_neg (slotOf_ne_irSlot r)).trans (if_neg hp)⟩
  case running =>
    exact ⟨fun hp => ⟨inPhase_outOfOrder hr hp _, step_out_of_order hr hp⟩, fun hp => inPhase_outOfOrder hr hp _,
      fun hp => inPhase_outOfOrder hr hp _⟩

/-- Settles O10: the core is Halted at power-on (rule R242). -/
theorem stepWhileHaltedOnlyReportsHalted : Obligations.StepWhileHaltedOnlyReportsHalted := by
  unfold Obligations.StepWhileHaltedOnlyReportsHalted
  refine ⟨fun s hs => step_halted ?_, fun regs ccr mem => step_halted rfl⟩
  simpa [finished] using hs

end Sys2Proof.Machine

/-! PROOFS. Data movement, control flow and the host's commands: O32 to O36, O56, O52 to O54, O31, O23 to O26. Each
instruction by its equation in Laws/Meanings; the frames of one register write are those of `writeReg_completesBut`. -/

namespace Sys2Proof.Machine

/-- A register read takes bits 19:0 of its slot (rule R22). -/
theorem low20_eq_extract (w : Word) : low20 w = w.extractLsb' 0 20 :=
  BitVec.setWidth_eq_extractLsb' (by decide)

/-- Settles O31: the operand of a record by its mode code. -/
theorem resolverGivesTheModesOperand : Obligations.ResolverGivesTheModesOperand := by
  unfold Obligations.ResolverGivesTheModesOperand
  refine fun d s => ⟨fun hmode => ?literal, fun hmode r hr => ?register, fun a w => ?memory,
    fun m run h => withOperand_permitted h s run⟩
  case literal =>
    rcases hmode with h | h <;> simp [operandOf, h, modeOfCode, operandValue]
  case register =>
    have hreg : regOfField d.rb = r := Fin.ext hr.symm
    rcases hmode with h | h <;> simp [operandOf, h, modeOfCode, operandValue, hreg, State.readReg, low20_eq_extract]
  case memory => cases operandOf d <;> rfl

/-- Settles O32: one register write. -/
theorem movWritesItsOperand : Obligations.MovWritesItsOperand := by
  unfold Obligations.MovWritesItsOperand
  exact fun ra o s ho => ⟨_, exec_mov ra o s ho, writeReg_holds s ra _, rfl, writeReg_completesBut s ra _⟩

/-- Settles O33: one register write, of the word's value modulo 2^20. -/
theorem ldrLoadsTheLowTwentyBits : Obligations.LdrLoadsTheLowTwentyBits := by
  unfold Obligations.LdrLoadsTheLowTwentyBits
  intro ra o s ho
  have hlow : low20 (s.readMem (operandValue s o)) =
      BitVec.ofNat 20 ((s.readMem (operandValue s o)).toNat % 2 ^ 20) := by
    apply BitVec.eq_of_toNat_eq
    simp [low20_toNat]
  exact ⟨_, exec_ldr ra o s ho, hlow ▸ writeReg_holds s ra _, rfl, writeReg_completesBut s ra _⟩

/-- Settles O34: one memory write. -/
theorem strStoresTheZeroExtendedRegister : Obligations.StrStoresTheZeroExtendedRegister := by
  unfold Obligations.StrStoresTheZeroExtendedRegister
  intro ra o s ho hmem
  refine ⟨_, exec_str ra o s ho, ?_, fun a ha => readMem_writeMem_other s ha _, write_wf hmem _ _, rfl, rfl, ⟨rfl, rfl⟩,
    rfl⟩
  rw [report_readMem, readMem_writeMem_same hmem, zext32_toNat]

/-- What a STR that answers has done (rule R132). -/
theorem exec_str_next {ra : Reg} {o : Operand} {s t : State} (ho : o.isAddress = true)
    (h : exec (.str ra o) s = .next t) : t = (s.writeMem (operandValue s o) (zext32 (s.readReg ra))).report .ok :=
  (next_inj.mp ((exec_str ra o s ho).symm.trans h)).symm

/-- Settles O35: the loaded word is the stored one, zero-extended, so its low 20 bits are the value stored. -/
theorem loadReturnsTheLastStore : Obligations.LoadReturnsTheLastStore := by
  unfold Obligations.LoadReturnsTheLastStore
  intro ra rd o o' s t hmem ho ho' h haddr
  refine ⟨_, exec_ldr rd o' t ho', ?_⟩
  rw [report_readReg, readReg_writeReg_self, haddr, exec_str_next ho h, report_readMem, readMem_writeMem_same hmem,
    low20_zext32]

/-! A stored word, fetched (rules R62, R63). -/

/-- A stored word has `op` 0 and mode 00: its bits 31:20 are zero (rules R63, R132). -/
theorem decodeRecord_zext32 (v : Val) : (decodeRecord (zext32 v)).op = 0b00000#5 ∧ (decodeRecord (zext32 v)).mode = 0b00#2 := by
  have hlt := zext32_toNat_lt v
  constructor <;> apply BitVec.eq_of_toNat_eq <;> simp only [decodeRecord, extract_toNat, BitVec.toNat_ofNat] <;> omega

section StoredWord
variable {num : Numbering} {ra : Reg} {o : Operand} {s t : State}

/-- After a STR the word at its address is the stored value, for the next fetch there too (rule R62). -/
theorem exec_str_fetches (hmem : s.mem.wf = true) (ho : o.isAddress = true) (h : exec (.str ra o) s = .next t) :
    (t.setPc (operandValue s o)).readMem (t.setPc (operandValue s o)).pc = zext32 (s.readReg ra) := by
  rw [setPc_pc, setPc_readMem, exec_str_next ho h, report_readMem, readMem_writeMem_same hmem]

/-- A stored word decodes, under an injective numbering, to the mnemonic numbered 0 in mode 00. -/
theorem decodeWith_zext32 (hnum : Function.Injective num) {m : Mnemonic} (hm : num m = 0b00000#5) (v : Val) :
    ∃ i, decodeWith num (zext32 v) = .ok i ∧ i.mnemonic = m ∧ i.mode = .immediate := by
  obtain ⟨hop, hmode⟩ := decodeRecord_zext32 v
  refine ⟨_, decodeWith_of_op hnum (hm.trans hop.symm), instrOf_mnemonic m _, ?_⟩
  rw [instrOf_mode, hmode]
  rfl

end StoredWord

/-- Settles O56: the step decodes the stored word under the numbering, or finds its `op` unassigned. -/
theorem storedWordRunsTheMnemonicNumberedZero : Obligations.StoredWordRunsTheMnemonicNumberedZero := by
  unfold Obligations.StoredWordRunsTheMnemonicNumberedZero
  intro num ra o s t hmem hr hp ho h
  have hword := exec_str_fetches hmem ho h
  have hr' : (t.setPc (operandValue s o)).running = true := by rw [exec_str_next ho h]; exact hr
  have hp' : (t.setPc (operandValue s o)).phase = .idle := by rw [exec_str_next ho h]; exact hp
  refine ⟨fun m hnum hm => ?_, fun hnone => ?_⟩
  · obtain ⟨i, hi, hmnemonic, hmode⟩ := decodeWith_zext32 hnum hm (s.readReg ra)
    exact ⟨i, hmnemonic, hmode, decodedWordIsEncodedOnItsUsedBits num _ i hi, stepWith_ok hr' hp' (hword ▸ hi)⟩
  · obtain ⟨hop, -⟩ := decodeRecord_zext32 (s.readReg ra)
    have hstep := stepWith_unassigned (num := num) hr' hp' (by rwa [hword, hop])
    refine ⟨_, hstep, fetch_report_fetchOnly _ _, ?_⟩
    rw [report_status, hword, hop, setPc_pc]

/-- HLT keeps its mode alone (rule R77). -/
theorem eq_hlt_of_mnemonic {i : Instr} (h : i.mnemonic = .hlt) : i = .hlt i.mode := by
  cases i with
  | hlt m => rfl
  | _ => cases h

/-- Settles O36: at the default numbering the mnemonic numbered 0 is HLT, and mode 00 is its own. -/
theorem executingAStoredWordHalts : Obligations.ExecutingAStoredWordHalts := by
  unfold Obligations.ExecutingAStoredWordHalts
  intro ra o s t hmem hr hp ho h
  obtain ⟨hruns, -⟩ := storedWordRunsTheMnemonicNumberedZero opcodeOf ra o s t hmem hr hp ho h
  obtain ⟨i, hmnemonic, hmode, -, hstep⟩ := hruns .hlt opcodeOf_injective rfl
  rw [eq_hlt_of_mnemonic hmnemonic, hmode, exec_hlt] at hstep
  refine ⟨_, hstep, ?_, rfl, rfl⟩
  rw [report_ir, halt_ir, fetch_ir, exec_str_fetches hmem ho h, zext32_toNat]

/-! Control flow. -/

/-- Settles O52: one write of `pc`. -/
theorem jmpSetsPcToItsOperand : Obligations.JmpSetsPcToItsOperand := by
  unfold Obligations.JmpSetsPcToItsOperand
  exact fun o s ho => ⟨_, exec_jmp o s ho, writeReg_holds s pcReg _, rfl, writeReg_completesBut s pcReg _⟩

/-- Settles O53: HLT permits mode 00 alone. -/
theorem hltHaltsOnlyInItsMode : Obligations.HltHaltsOnlyInItsMode := by
  unfold Obligations.HltHaltsOnlyInItsMode
  refine fun s => ⟨⟨_, exec_hlt s, rfl, rfl, rfl, rfl, rfl, rfl⟩, fun m hm => ?_⟩
  have hill : (Instr.hlt m).wellFormed = false := by
    cases m with
    | immediate => exact absurd rfl hm
    | register | direct | indirect => rfl
  exact ⟨_, exec_illFormed hill s, rfl, rfl⟩

/-- Writing `pc` its own value changes nothing, its bits 31:20 being zero already (rules R22, R26). -/
theorem setPc_pc_self {s : State} (h : s.slotsMasked) : s.setPc s.pc = s := by
  refine state_ext (fun i => ?_) rfl rfl rfl rfl rfl
  rw [slot_setPc]
  split
  · rename_i hi
    rw [hi]
    exact zext32_low20_of_lt (h pcReg)
  · rfl

/-- Settles O54: taken, a branch writes `pc` its own value. -/
theorem branchToTheNextAddressChangesNothing : Obligations.BranchToTheNextAddressChangesNothing := by
  unfold Obligations.BranchToTheNextAddressChangesNothing
  intro o s ho hslots hpc i hi
  obtain ⟨p, hp, rfl⟩ : ∃ p ∈ branchesOn o s, p.1 = i := List.mem_map.mp (by simpa [branchesOn] using hi)
  rw [exec_branchesOn o s ho p hp, hpc, setPc_pc_self hslots, ite_self]

/-! The host's commands. -/

/-- Settles O23: all but memory is `State.reset`'s. -/
theorem resetClearsRegistersAndKeepsMemory : Obligations.ResetClearsRegistersAndKeepsMemory := by
  unfold Obligations.ResetClearsRegistersAndKeepsMemory
  have hslots : ∀ i : Slot, State.reset.slot i = 0#32 := by decide
  exact fun s => ⟨hslots, rfl, rfl, rfl, rfl⟩

/-- Settles O24: a register write of the word's low 20 bits. -/
theorem hostSlotWriteMasksAndSparesTheHoldingRegister : Obligations.HostSlotWriteMasksAndSparesTheHoldingRegister := by
  unfold Obligations.HostSlotWriteMasksAndSparesTheHoldingRegister
  refine fun s w => ⟨if_pos rfl, fun hp r => ⟨s.writeReg r (low20 w), ?_, ?_, fun j hj => ?_, rfl, rfl, ⟨rfl, rfl⟩⟩⟩
  · exact (if_neg (slotOf_ne_irSlot r)).trans (if_pos hp)
  · rw [slot_writeReg, if_pos rfl, zext32_toNat, low20_toNat]
  · exact slot_writeReg_other s j r _ (List.ne_of_not_mem_cons hj)

/-- Settles O26: the four bits, one by one. -/
theorem flagOutputPacksCZNV : Obligations.FlagOutputPacksCZNV := by
  unfold Obligations.FlagOutputPacksCZNV
  intro s
  simp only [ccrPort, BitVec.getLsbD_append, BitVec.getLsbD_ofBool]
  simp

section Load
variable {s : State}

/-- Loading touches memory alone (rule R244). -/
theorem loadWords_frame (s : State) (a : Val) (ws : List Word) :
    (loadWords s a ws).regs = s.regs ∧ (loadWords s a ws).ccr = s.ccr ∧ keepsControl s (loadWords s a ws) ∧
      (loadWords s a ws).status = s.status := by
  induction ws generalizing s a with
  | nil => exact ⟨rfl, rfl, ⟨rfl, rfl⟩, rfl⟩
  | cons w rest ih => exact ih (s.writeMem a w) _

/-- The address after `a`, as an addition of 20-bit values (rule R51). -/
theorem trunc20_succ (a : Val) : trunc20 ((a.toNat : Int) + 1) = a + 1#20 := by
  apply BitVec.eq_of_toNat_eq
  rw [BitVec.toNat_add]
  exact_mod_cast trunc20_natCast_toNat (a.toNat + 1)

/-- The k-th address after the next one. -/
theorem succ_add_ofNat (a : Val) (k : Nat) : a + 1#20 + BitVec.ofNat 20 k = a + BitVec.ofNat 20 (k + 1) := by
  rw [BitVec.add_assoc, ← BitVec.ofNat_add, Nat.add_comm]

/-- Less than 2^20 addresses on, the address is another one. -/
theorem ne_add_ofNat_succ (a : Val) {k : Nat} (h : k + 1 < 2 ^ 20) : a ≠ a + BitVec.ofNat 20 (k + 1) := by
  intro e
  have ha := a.isLt
  have hn := congrArg BitVec.toNat e
  rw [BitVec.toNat_add, BitVec.toNat_ofNat] at hn
  omega

/-- An address that is none of the loaded ones reads as before. -/
theorem readMem_loadWords_other (a b : Val) (ws : List Word) (h : ∀ k, k < ws.length → b ≠ a + BitVec.ofNat 20 k) :
    (loadWords s a ws).readMem b = s.readMem b := by
  induction ws generalizing s a with
  | nil => rfl
  | cons w rest ih =>
    have hb : b ≠ a := by simpa using h 0 (by simp)
    rw [loadWords, trunc20_succ, ih _ fun k hk => ?_, readMem_writeMem_other s hb]
    rw [succ_add_ofNat]
    exact h (k + 1) (by simpa using hk)

/-- At most 2^20 words have different addresses, so each reads back as loaded. -/
theorem readMem_loadWords {a : Val} {ws : List Word} (hmem : s.mem.wf = true) (hlen : ws.length ≤ 2 ^ 20) {k : Nat}
    {w : Word} (hw : ws[k]? = some w) : (loadWords s a ws).readMem (a + BitVec.ofNat 20 k) = w := by
  induction ws generalizing s a k with
  | nil => cases hw
  | cons x rest ih =>
    rw [List.length_cons] at hlen
    rw [loadWords, trunc20_succ]
    cases k with
    | zero =>
      have hlater : ∀ k, k < rest.length → a ≠ a + 1#20 + BitVec.ofNat 20 k := fun k hk => by
        rw [succ_add_ofNat]
        exact ne_add_ofNat_succ a (by omega)
      rw [BitVec.add_zero, readMem_loadWords_other _ _ _ hlater, readMem_writeMem_same hmem]
      simpa using hw
    | succ k =>
      rw [← succ_add_ofNat a k]
      exact ih (s := s.writeMem a x) (write_wf hmem a x) (by omega) (by simpa using hw)

end Load

/-- Settles O25: one write, or the loader's writes. -/
theorem loadedImageReadsBack : Obligations.LoadedImageReadsBack := by
  unfold Obligations.LoadedImageReadsBack
  refine ⟨fun s a w hp hmem => ?_, fun s base ws hp hmem hlen => ?_⟩
  · exact ⟨_, if_pos hp, rfl, rfl, ⟨rfl, rfl⟩, rfl, readMem_writeMem_same hmem a w,
      fun b hb => readMem_writeMem_other s hb w⟩
  · obtain ⟨hregs, hccr, hcontrol, hstatus⟩ := loadWords_frame s base ws
    exact ⟨_, if_pos hp, hregs, hccr, hcontrol, hstatus, fun k w hw => readMem_loadWords hmem hlen hw,
      fun a ha => readMem_loadWords_other base a ws ha⟩

end Sys2Proof.Machine

/-! PROOFS. The program counter: O13, O14, and the instruction that jumps to itself, O20. Fetch moves `pc` on by one; what
follows either leaves it, or is one write of it. -/

namespace Sys2Proof.Machine

/-- A register is read from its own slot alone (rule R23). -/
theorem readReg_congr {s t : State} {r : Reg} (h : t.slot (slotOf r) = s.slot (slotOf r)) : t.readReg r = s.readReg r :=
  congrArg low20 h

/-- Settles O13: an instruction outside whose row slot 15 is leaves fetch's `pc`, and so does an error. -/
theorem pcAfterAStep : Obligations.PcAfterAStep := by
  unfold Obligations.PcAfterAStep
  intro s t i hr hp hi h
  have hexec : exec i (fetch s) = .next t := (stepWith_ok hr hp hi).symm.trans h
  refine ⟨fun hrow => ?_, fun herror => ?_, fun o hjmp ho => ?_⟩
  · have hpc : t.pc = (fetch s).pc := readReg_congr ((exec_keepsRow hexec).slots _ hrow)
    rw [hpc, fetch_pc_toNat]
  · obtain ⟨e, he⟩ : ∃ e, t.status = .error e := by
      cases hst : t.status with
      | ok | halted => rw [hst] at herror; cases herror
      | error e => exact ⟨e, rfl⟩
    obtain ⟨-, ht, -⟩ := step_error h he
    rw [ht, report_pc, fetch_pc_toNat]
  · rw [hjmp, exec_jmp o _ ho, next_inj] at hexec
    rw [← hexec, report_pc, setPc_pc]

/-- Settles O14: register 15 after fetch, then the equations of MOV, STR and ADD in that state. -/
theorem readingR15GivesTheNextAddress : Obligations.ReadingR15GivesTheNextAddress := by
  unfold Obligations.ReadingR15GivesTheNextAddress
  refine ⟨fun s => ⟨fetch_pc_toNat s, fetch_pc_toNat s, fetch_pc_toNat s, fun i => stepWith_ok⟩, ?_⟩
  refine fun s hr hp hmem => ⟨fun rd h => ?mov, fun a h => ?str, fun v h => ?add⟩
  case mov =>
    refine ⟨_, (stepWith_ok hr hp h).trans (exec_mov rd _ _ rfl), ?_⟩
    rw [report_readReg, readReg_writeReg_self]
    exact fetch_pc_toNat s
  case str =>
    refine ⟨_, (stepWith_ok hr hp h).trans (exec_str pcReg _ _ rfl), ?_⟩
    rw [report_readMem]
    refine Eq.trans ?_ (fetch_pc_toNat s)
    rw [← zext32_toNat]
    exact congrArg BitVec.toNat (readMem_writeMem_same (s := fetch s) hmem a _)
  case add =>
    refine ⟨_, (stepWith_ok hr hp h).trans (exec_add pcReg _ _ rfl), ?_⟩
    have hsum := (addResult_effect (fetch s).pc v false).result
    have hpc := fetch_pc_toNat s
    rw [report_pc]
    refine (congrArg BitVec.toNat (readReg_writeReg_self _ pcReg _)).trans (hsum.trans ?_)
    rw [hpc, Bool.toNat_false, Nat.add_zero, Nat.mod_add_mod]

/-! An instruction that jumps to itself (rule R203). -/

/-- Between two steps at the address of `s`, all as in `s` but slots 15 and 16 and the status. -/
structure BackAt (s t : State) : Prop where
  running : t.running = true
  phase : t.phase = .idle
  pc : t.pc = s.pc
  flags : t.ccr = s.ccr
  memory : t.mem = s.mem
  slots : keepsSlotsBut [slotOf pcReg, irSlot] s t

section SelfJump
variable {o : Operand} {s t : State}

/-- Fetched at the same address, every register has the same value. -/
theorem BackAt.fetch_readReg (h : BackAt s t) (r : Reg) : (fetch t).readReg r = (fetch s).readReg r := by
  by_cases hr : r = pcReg
  · subst hr
    change (fetch t).pc = (fetch s).pc
    rw [fetch_pc, fetch_pc, h.pc]
  · rw [fetch_readReg_other t hr, fetch_readReg_other s hr]
    exact readReg_congr (h.slots _ (by simp [hr]))

theorem BackAt.operandValue_fetch (h : BackAt s t) (o : Operand) :
    operandValue (fetch t) o = operandValue (fetch s) o := by
  cases o with
  | immediate v | direct v => rfl
  | register rb | indirect rb => exact h.fetch_readReg rb

theorem BackAt.fetched_word (h : BackAt s t) : t.readMem t.pc = s.readMem s.pc := by
  rw [State.readMem, State.readMem, h.pc, h.memory]

/-- JMP, and a branch whose flag has its value, write `pc` (rules R190, R200). -/
theorem exec_taken (ho : o.isAddress = true) {p : Instr × Bool} (hp : p ∈ (.jmp o, true) :: branchesOn o s)
    (htaken : p.2 = true) : exec p.1 s = .next ((s.setPc (operandValue s o)).report .ok) := by
  rcases List.mem_cons.mp hp with rfl | hbranch
  · exact exec_jmp o s ho
  · rw [exec_branchesOn o s ho p hbranch, htaken, if_pos rfl]

/-- Whether a branch is taken depends on the flags alone (rules R192 to R199). -/
theorem branchesOn_congr (h : t.ccr = s.ccr) : branchesOn o t = branchesOn o s := by
  simp only [branchesOn, h]

/-- One step of an instruction that jumps to its own address comes back to it. -/
theorem selfJump_step (ho : o.isAddress = true) (htarget : operandValue (fetch s) o = s.pc) {p : Instr × Bool}
    (hp : p ∈ (.jmp o, true) :: branchesOn o s) (htaken : p.2 = true) (hword : decode (s.readMem s.pc) = .ok p.1)
    (h : BackAt s t) : ∃ u, step t = .next u ∧ BackAt s u ∧ u.ir = s.readMem s.pc ∧ u.status = .ok := by
  have hp' : p ∈ (.jmp o, true) :: branchesOn o (fetch t) := by rwa [branchesOn_congr (t := fetch t) h.flags]
  have hexec := exec_taken ho hp' htaken
  rw [h.operandValue_fetch, htarget] at hexec
  have hword' : decode (t.readMem t.pc) = .ok p.1 := by rwa [h.fetched_word]
  refine ⟨_, (stepWith_ok h.running h.phase hword').trans hexec, ?_, ?_, rfl⟩
  · refine ⟨h.running, h.phase, setPc_pc _ _, h.flags, h.memory, fun j hj => ?_⟩
    obtain ⟨h15, h16⟩ : j ≠ slotOf pcReg ∧ j ≠ irSlot := by simpa using hj
    rw [report_slot, slot_setPc, if_neg h15, fetch_slot_other t h15 h16, h.slots j hj]
  · rw [report_ir, setPc_ir, fetch_ir, h.fetched_word]

end SelfJump

/-- Settles O20, by induction on the number of steps, from any state back at the address. -/
theorem selfJumpNeverHalts : Obligations.SelfJumpNeverHalts := by
  unfold Obligations.SelfJumpNeverHalts
  intro o s hr hidle ho htarget p hp hword htaken k
  have hstep := fun t => selfJump_step (t := t) ho htarget hp htaken hword
  suffices hrun : ∀ t, BackAt s t →
      ∃ u, Sys2Proof.core.run (k + 1) t = .next u ∧ BackAt s u ∧ u.ir = s.readMem s.pc ∧ u.status = .ok by
    obtain ⟨u, hu, hback, hir, hok⟩ := hrun s ⟨hr, hidle, rfl, rfl, rfl, fun _ _ => rfl⟩
    exact ⟨u, hu, hback.running, hback.pc, hir, hok, hback.phase, hback.flags, hback.memory, hback.slots⟩
  induction k with
  | zero =>
    intro t ht
    obtain ⟨u, hu, hend⟩ := hstep t ht
    exact ⟨u, (run_succ hu).trans (run_zero u), hend⟩
  | succ k ih =>
    intro t ht
    obtain ⟨u, hu, hback, -⟩ := hstep t ht
    rw [run_succ hu]
    exact ih u hback

end Sys2Proof.Machine

/-! PROOFS. Arithmetic, shifts, rotates and logic: O37 to O50. Each of these instructions but CMP and a rotate by 0 is one
`commitAlu`: it leaves the result in register A, the result's flags, and the frame of one register write. What the result
and flags are is said in Laws/Flags. -/

namespace Sys2Proof.Machine

/-- Register A has this content, bits 31:20 zero, the flags are these, and nothing else was written (rules R22, R25). -/
structure AluDone (ra : Reg) (r : AluResult) (s t : State) : Prop where
  value : t.readReg ra = r.res
  flags : t.ccr = r.flags
  masked : (t.slot (slotOf ra)).toNat < 2 ^ 20
  completes : CompletesBut [slotOf ra] s t

section CommitAlu
variable {ra : Reg} {r : AluResult} {s t : State}

theorem commitAlu_done (ra : Reg) (r : AluResult) (s : State) : ∃ t, commitAlu ra r s = .next t ∧ AluDone ra r s t := by
  obtain ⟨hvalue, hmasked⟩ := writeReg_holds (s.setFlags r.flags) ra r.res
  obtain ⟨hok, hslots, hmem, hcontrol⟩ := writeReg_completesBut (s.setFlags r.flags) ra r.res
  exact ⟨_, commitAlu_eq ra r s, hvalue, rfl, hmasked, hok, hslots, hmem, hcontrol⟩

/-- An instruction that is a `commitAlu` answers, with that done. -/
theorem exec_done {out : StepOutcome} (h : out = commitAlu ra r s) : ∃ t, out = .next t ∧ AluDone ra r s t :=
  h ▸ commitAlu_done ra r s

theorem done_of_exec {out : StepOutcome} (h : out = commitAlu ra r s) (ht : out = .next t) : AluDone ra r s t := by
  obtain ⟨u, hu, hdone⟩ := exec_done h
  obtain rfl := next_inj.mp (hu.symm.trans ht)
  exact hdone

/-- Writing the flags alone (CMP, a rotate by 0) writes no slot. -/
theorem setFlags_completesBut (s : State) (f : Flags) : CompletesBut [] s ((s.setFlags f).report .ok) :=
  ⟨rfl, fun _ _ => rfl, fun _ => rfl, rfl, rfl⟩

end CommitAlu

/-! Arithmetic. -/

theorem toNat_carryIn (c : Bool) : c.toNat = if c then 1 else 0 := by cases c <;> rfl

theorem toNat_borrowIn (c : Bool) : (!c).toNat = if c then 0 else 1 := by cases c <;> rfl

/-- Settles O37: ADD and ADC commit the addition rule's result. -/
theorem addAndAdcFollowTheAdditionRule : Obligations.AddAndAdcFollowTheAdditionRule := by
  unfold Obligations.AddAndAdcFollowTheAdditionRule
  intro ra o s ho
  have heffect (cin : Bool) {t : State}
      (h : AluDone ra (addResult specParams (s.readReg ra) (operandValue s o) cin) s t) :
      AdditionEffect (s.readReg ra) (operandValue s o) cin.toNat (t.readReg ra) t.ccr := by
    rw [h.value, h.flags]
    exact addResult_effect _ _ cin
  constructor
  · obtain ⟨t, ht, hdone⟩ := exec_done (exec_add ra o s ho)
    exact ⟨t, ht, heffect false hdone, hdone.masked, hdone.completes⟩
  · obtain ⟨t, ht, hdone⟩ := exec_done (exec_adc ra o s ho)
    exact ⟨t, ht, toNat_carryIn s.ccr.c ▸ heffect s.ccr.c hdone, hdone.masked, hdone.completes⟩

/-- Settles O38: SUB and SBC commit the subtraction rule's result. -/
theorem subAndSbcFollowTheSubtractionRule : Obligations.SubAndSbcFollowTheSubtractionRule := by
  unfold Obligations.SubAndSbcFollowTheSubtractionRule
  intro ra o s ho
  have heffect (bin : Bool) {t : State}
      (h : AluDone ra (subResult specParams s.ccr (s.readReg ra) (operandValue s o) bin) s t) :
      SubtractionEffect (s.readReg ra) (operandValue s o) bin.toNat (t.readReg ra) t.ccr := by
    rw [h.value, h.flags]
    exact subResult_effect s.ccr _ _ bin
  constructor
  · obtain ⟨t, ht, hdone⟩ := exec_done (exec_sub ra o s ho)
    exact ⟨t, ht, heffect false hdone, hdone.masked, hdone.completes⟩
  · obtain ⟨t, ht, hdone⟩ := exec_done (exec_sbc ra o s ho)
    exact ⟨t, ht, toNat_borrowIn s.ccr.c ▸ heffect (!s.ccr.c) hdone, hdone.masked, hdone.completes⟩

/-- Settles O39: CMP writes the flags of the result that SUB commits. -/
theorem cmpSetsSubFlagsAndWritesNoRegister : Obligations.CmpSetsSubFlagsAndWritesNoRegister := by
  unfold Obligations.CmpSetsSubFlagsAndWritesNoRegister
  intro ra o s ho
  obtain ⟨u, hu, hdone⟩ := exec_done (exec_sub ra o s ho)
  refine ⟨_, exec_cmp ra o s ho, setFlags_completesBut s _, u, hu, hdone.flags.symm, ?_⟩
  rw [hdone.value]
  exact subResult_effect s.ccr _ _ false

/-- Two values have the same sign when neither or both are 0x80000 or above (rule R12). -/
theorem signBit_eq_iff (v w : Val) : v.getLsbD 19 = w.getLsbD 19 ↔ (2 ^ 19 ≤ v.toNat ↔ 2 ^ 19 ≤ w.toNat) := by
  change sign v = sign w ↔ _
  rw [sign_eq_decide, sign_eq_decide, decide_eq_decide]

/-- V of an addition is signed overflow of the sum, carry-in included (rule R150): by the signs of the operands. -/
theorem additionEffect_overflow {a b res : Val} {cin : Nat} {f : Flags} (h : AdditionEffect a b cin res f)
    (hcin : cin ≤ 1) : f.v = true ↔
      ¬ (-524288 ≤ signedVal a + signedVal b + cin ∧ signedVal a + signedVal b + cin ≤ 524287) := by
  have ha := a.isLt
  have hb := b.isLt
  have hres := h.result
  rw [h.overflow, ne_eq, signBit_eq_iff, signBit_eq_iff]
  rcases signedVal_cases a with ⟨-, hsa, hva⟩ | ⟨-, hsa, hva⟩ <;>
    rcases signedVal_cases b with ⟨-, hsb, hvb⟩ | ⟨-, hsb, hvb⟩ <;> omega

/-- V of a subtraction is signed overflow of the difference, borrow-in included (rule R150). -/
theorem subtractionEffect_overflow {a b res : Val} {bin : Nat} {f : Flags} (h : SubtractionEffect a b bin res f)
    (hbin : bin ≤ 1) : f.v = true ↔
      ¬ (-524288 ≤ signedVal a - signedVal b - bin ∧ signedVal a - signedVal b - bin ≤ 524287) := by
  have ha := a.isLt
  have hb := b.isLt
  have hres := h.result
  rw [h.overflow, ne_eq, ne_eq, signBit_eq_iff, signBit_eq_iff]
  rcases signedVal_cases a with ⟨-, hsa, hva⟩ | ⟨-, hsa, hva⟩ <;>
    rcases signedVal_cases b with ⟨-, hsb, hvb⟩ | ⟨-, hsb, hvb⟩ <;> omega

/-- Settles O40: the rules' effects, each with signed overflow for V; CMP has the flags of SUB. -/
theorem overflowFlagIsSignedOverflow : Obligations.OverflowFlagIsSignedOverflow := by
  unfold Obligations.OverflowFlagIsSignedOverflow
  intro ra o s t ho
  have hone (c : Bool) : c.toNat ≤ 1 := Bool.toNat_le c
  have hadd (cin : Bool) := additionEffect_overflow (addResult_effect (s.readReg ra) (operandValue s o) cin) (hone cin)
  have hsub (bin : Bool) :=
    subtractionEffect_overflow (subResult_effect s.ccr (s.readReg ra) (operandValue s o) bin) (hone bin)
  refine ⟨fun h => ?add, fun h => ?adc, fun h => ?subOrCmp, fun h => ?sbc⟩
  case add =>
    rw [(done_of_exec (exec_add ra o s ho) h).flags]
    simpa using hadd false
  case adc =>
    rw [(done_of_exec (exec_adc ra o s ho) h).flags, hadd s.ccr.c, toNat_carryIn]
    push_cast
    rfl
  case subOrCmp =>
    have hflags : t.ccr = (subResult specParams s.ccr (s.readReg ra) (operandValue s o) false).flags := by
      rcases h with h | h
      · exact (done_of_exec (exec_sub ra o s ho) h).flags
      · rw [exec_cmp ra o s ho, next_inj] at h
        rw [← h]
        rfl
    rw [hflags]
    simpa using hsub false
  case sbc =>
    rw [(done_of_exec (exec_sbc ra o s ho) h).flags, hsub (!s.ccr.c), toNat_borrowIn]
    push_cast
    rfl

/-- Settles O41: SUB's C is its borrow, and SBC takes the inverse of C as its borrow-in (rule R149). -/
theorem sbcReadsCarryAgainstSubsBorrow : Obligations.SbcReadsCarryAgainstSubsBorrow := by
  unfold Obligations.SbcReadsCarryAgainstSubsBorrow
  intro ra rb o o' s t ho ho' h
  have hborrow : t.ccr.c = true ↔ (s.readReg ra).toNat < (operandValue s o).toNat := by
    rw [(done_of_exec (exec_sub ra o s ho) h).flags]
    exact (subResult_effect s.ccr _ _ false).borrow
  obtain ⟨u, hu, hdone⟩ := exec_done (exec_sbc rb o' t ho')
  refine ⟨u, hu, ?_⟩
  rw [hdone.value, (subResult_effect t.ccr _ _ (!t.ccr.c)).result, toNat_borrowIn]
  simp only [hborrow]
  push_cast
  rfl

/-! Shifts. -/

/-- Settles O42: the committed result is `lslResult_effect`'s. -/
theorem lslMultipliesByAPowerOfTwo : Obligations.LslMultipliesByAPowerOfTwo := by
  unfold Obligations.LslMultipliesByAPowerOfTwo
  intro ra o s ho
  obtain ⟨t, ht, hdone⟩ := exec_done (exec_lsl ra o s ho)
  obtain ⟨hvalue, hflags⟩ := lslResult_effect s.ccr (s.readReg ra) (operandValue s o)
  rw [← hdone.value, ← hdone.flags] at hflags
  exact ⟨t, ht, hdone.value ▸ hvalue, hflags, hdone.masked, hdone.completes⟩

/-- Settles O43: the committed result is `lsrResult_effect`'s. -/
theorem lsrDividesByAPowerOfTwo : Obligations.LsrDividesByAPowerOfTwo := by
  unfold Obligations.LsrDividesByAPowerOfTwo
  intro ra o s ho
  obtain ⟨t, ht, hdone⟩ := exec_done (exec_lsr ra o s ho)
  obtain ⟨hvalue, hflags⟩ := lsrResult_effect s.ccr (s.readReg ra) (operandValue s o)
  rw [← hdone.value, ← hdone.flags] at hflags
  exact ⟨t, ht, hdone.value ▸ hvalue, hflags, hdone.masked, hdone.completes⟩

/-- Division by a power of two, rounding down, takes a negative integer no further from 0 and never to it. -/
theorem ediv_two_pow_of_neg {x : Int} (n : Nat) (h : x < 0) : x ≤ x / 2 ^ n ∧ x / 2 ^ n < 0 := by
  have hpos : (0 : Int) < 2 ^ n := by positivity
  refine ⟨(Int.le_ediv_iff_mul_le hpos).mpr ?_, Int.ediv_neg_of_neg_of_pos h hpos⟩
  nlinarith

theorem ediv_two_pow_of_nonneg {x : Int} (n : Nat) (h : 0 ≤ x) : 0 ≤ x / 2 ^ n ∧ x / 2 ^ n ≤ x :=
  ⟨Int.ediv_nonneg h (by positivity), Int.ediv_le_self _ h⟩

/-- The floor shift keeps the sign of a value, so the signs that V compares are equal (rules R163, R164). -/
theorem asrResult_sign (old : Flags) (a b : Val) : (asrResult specParams old a b).res.getLsbD 19 = a.getLsbD 19 := by
  have ha := a.isLt
  obtain ⟨hvalue, -⟩ := asrResult_effect old a b
  rw [signBit_eq_iff]
  rcases signedVal_cases a with ⟨-, hge, hv⟩ | ⟨-, hlt, hv⟩
  · have hbounds := ediv_two_pow_of_neg b.toNat (x := signedVal a) (by omega)
    omega
  · have hbounds := ediv_two_pow_of_nonneg b.toNat (x := signedVal a) (by omega)
    omega

/-- Settles O44: the committed result is `asrResult_effect`'s, and V compares equal signs. -/
theorem asrDividesTheSignedValue : Obligations.AsrDividesTheSignedValue := by
  unfold Obligations.AsrDividesTheSignedValue
  intro ra o s ho
  obtain ⟨t, ht, hdone⟩ := exec_done (exec_asr ra o s ho)
  obtain ⟨hvalue, hflags⟩ := asrResult_effect s.ccr (s.readReg ra) (operandValue s o)
  have hsign := asrResult_sign s.ccr (s.readReg ra) (operandValue s o)
  rw [← hdone.value] at hvalue hflags hsign
  rw [← hdone.flags] at hflags
  have hv : t.ccr.v = false := by
    rw [Bool.eq_false_iff, ne_eq, hflags.overflow, hsign]
    simp
  exact ⟨t, ht, hvalue, hflags, hv, hdone.masked, hdone.completes⟩

/-! Rotates. -/

/-- Bit `j` of `a` is bit `(j + n) mod 20` of `res` (rule R166). -/
def MovedLeft (a : Val) (n : Nat) (res : Val) : Prop := ∀ j, j < 20 → res.getLsbD ((j + n) % 20) = a.getLsbD j

/-- Bit `(j + n) mod 20` of `a` is bit `j` of `res` (rule R167). -/
def MovedRight (a : Val) (n : Nat) (res : Val) : Prop := ∀ j, j < 20 → res.getLsbD j = a.getLsbD ((j + n) % 20)

theorem movedLeft_zero (a : Val) : MovedLeft a 0 a := fun j hj => by
  rw [Nat.add_zero, Nat.mod_eq_of_lt hj]

theorem movedRight_zero (a : Val) : MovedRight a 0 a := fun j hj => by
  rw [Nat.add_zero, Nat.mod_eq_of_lt hj]

/-- A rotate by 0 writes the flags alone, by any other amount it commits its result (rules R165, R168). How
it `moved` the bits of register A is said of the value it leaves, and its carry is bit `c` of that value. -/
theorem rotate_answers {ra : Reg} {o : Operand} {s : State} {out : StepOutcome} {r : AluResult}
    {moved : Val → Nat → Val → Prop} {c : Nat}
    (hzero : operandValue s o = 0#20 →
      out = .next ((s.setFlags (rotateZeroFlags specParams s.ccr (s.readReg ra))).report .ok))
    (hmoved : moved (s.readReg ra) 0 (s.readReg ra))
    (hnonzero : operandValue s o ≠ 0#20 → out = commitAlu ra r s)
    (heffect : (operandValue s o).toNat ≠ 0 → moved (s.readReg ra) (operandValue s o).toNat r.res ∧
      RotateFlags s.ccr (s.readReg ra) r.res (operandValue s o).toNat (r.res.getLsbD c) r.flags) :
    ∃ t, out = .next t ∧ moved (s.readReg ra) (operandValue s o).toNat (t.readReg ra) ∧
      RotateFlags s.ccr (s.readReg ra) (t.readReg ra) (operandValue s o).toNat ((t.readReg ra).getLsbD c) t.ccr ∧
      ((operandValue s o).toNat ≠ 0 → (t.slot (slotOf ra)).toNat < 2 ^ 20 ∧ CompletesBut [slotOf ra] s t) ∧
      ((operandValue s o).toNat = 0 → CompletesBut [] s t) := by
  by_cases hn : (operandValue s o).toNat = 0
  · have hflags := rotateZeroFlags_effect s.ccr (s.readReg ra) ((s.readReg ra).getLsbD c)
    rw [← hn] at hmoved hflags
    exact ⟨_, hzero (BitVec.eq_of_toNat_eq hn), hmoved, hflags, fun h => absurd hn h, fun _ => setFlags_completesBut s _⟩
  · obtain ⟨t, ht, hdone⟩ := exec_done (hnonzero fun e => hn (congrArg BitVec.toNat e))
    obtain ⟨hvalue, hflags⟩ := heffect hn
    rw [← hdone.value] at hvalue hflags
    rw [← hdone.flags] at hflags
    exact ⟨t, ht, hvalue, hflags, fun _ => ⟨hdone.masked, hdone.completes⟩, fun h => absurd h hn⟩

/-- Settles O45: the rotation by a non-zero amount is `rolResult_effect`'s. -/
theorem rolMovesEveryBitLeft : Obligations.RolMovesEveryBitLeft := by
  unfold Obligations.RolMovesEveryBitLeft
  intro ra o s ho
  exact rotate_answers (moved := MovedLeft) (exec_rol_zero ra o s ho) (movedLeft_zero _) (exec_rol_nonzero ra o s ho)
    (rolResult_effect s.ccr (s.readReg ra) (operandValue s o))

/-- Settles O46: the rotation by a non-zero amount is `rorResult_effect`'s. -/
theorem rorMovesEveryBitRight : Obligations.RorMovesEveryBitRight := by
  unfold Obligations.RorMovesEveryBitRight
  intro ra o s ho
  exact rotate_answers (moved := MovedRight) (exec_ror_zero ra o s ho) (movedRight_zero _) (exec_ror_nonzero ra o s ho)
    (rorResult_effect s.ccr (s.readReg ra) (operandValue s o))

section Rotates
variable {ra : Reg} {o : Operand} {s t : State}

/-- What a ROL that answers has done to the bits of register A and to the flags. -/
theorem exec_rol_next (ho : o.isValue = true) (h : exec (.rol ra o) s = .next t) :
    (∀ j, j < 20 → (t.readReg ra).getLsbD ((j + (operandValue s o).toNat) % 20) = (s.readReg ra).getLsbD j) ∧
      RotateFlags s.ccr (s.readReg ra) (t.readReg ra) (operandValue s o).toNat ((t.readReg ra).getLsbD 0) t.ccr := by
  obtain ⟨u, hu, hbits, hflags, -⟩ := rolMovesEveryBitLeft ra o s ho
  obtain rfl := next_inj.mp (hu.symm.trans h)
  exact ⟨hbits, hflags⟩

theorem exec_ror_next (ho : o.isValue = true) (h : exec (.ror ra o) s = .next t) :
    (∀ j, j < 20 → (t.readReg ra).getLsbD j = (s.readReg ra).getLsbD ((j + (operandValue s o).toNat) % 20)) ∧
      RotateFlags s.ccr (s.readReg ra) (t.readReg ra) (operandValue s o).toNat ((t.readReg ra).getLsbD 19) t.ccr := by
  obtain ⟨u, hu, hbits, hflags, -⟩ := rorMovesEveryBitRight ra o s ho
  obtain rfl := next_inj.mp (hu.symm.trans h)
  exact ⟨hbits, hflags⟩

/-- A rotate that leaves every bit in its place keeps the value, and sets V to 0 and Z, N and C from the value. -/
theorem rotate_in_place {old f : Flags} {a res : Val} {n c : Nat} (hbits : ∀ j, j < 20 → res.getLsbD j = a.getLsbD j)
    (hflags : RotateFlags old a res n (res.getLsbD c) f) (hn : n ≠ 0) :
    res = a ∧ f.v = false ∧ ZNOf f a ∧ f.c = a.getLsbD c := by
  obtain rfl : res = a := BitVec.eq_of_getLsbD_eq hbits
  refine ⟨rfl, ?_, hflags.zeroNegative, hflags.carryOut hn⟩
  rw [Bool.eq_false_iff, ne_eq, hflags.overflow hn]
  simp

/-- A rotate by a multiple of 20 moves each bit to its own place (rule R165). -/
theorem add_mod_twenty {j n : Nat} (hj : j < 20) (hn : n % 20 = 0) : (j + n) % 20 = j := by omega

theorem full_rol (ho : o.isValue = true) (hn : (operandValue s o).toNat ≠ 0) (hmod : (operandValue s o).toNat % 20 = 0)
    (h : exec (.rol ra o) s = .next t) : t.readReg ra = s.readReg ra ∧ t.ccr.v = false ∧ ZNOf t.ccr (s.readReg ra) ∧
      t.ccr.c = (s.readReg ra).getLsbD 0 := by
  obtain ⟨hbits, hflags⟩ := exec_rol_next ho h
  refine rotate_in_place (fun j hj => ?_) hflags hn
  rw [← hbits j hj, add_mod_twenty hj hmod]

theorem full_ror (ho : o.isValue = true) (hn : (operandValue s o).toNat ≠ 0) (hmod : (operandValue s o).toNat % 20 = 0)
    (h : exec (.ror ra o) s = .next t) : t.readReg ra = s.readReg ra ∧ t.ccr.v = false ∧ ZNOf t.ccr (s.readReg ra) ∧
      t.ccr.c = (s.readReg ra).getLsbD 19 := by
  obtain ⟨hbits, hflags⟩ := exec_ror_next ho h
  refine rotate_in_place (fun j hj => ?_) hflags hn
  rw [hbits j hj, add_mod_twenty hj hmod]

end Rotates

/-- Settles O47: both rotates leave every bit in its place; their carries are read at different bits. -/
theorem fullRotationKeepsTheValue : Obligations.FullRotationKeepsTheValue := by
  unfold Obligations.FullRotationKeepsTheValue
  intro ra o s t ho hn hmod h
  have hrol (h : exec (.rol ra o) s = .next t) := full_rol ho hn hmod h
  have hror (h : exec (.ror ra o) s = .next t) := full_ror ho hn hmod h
  obtain ⟨hkept, hv, hzn⟩ : t.readReg ra = s.readReg ra ∧ t.ccr.v = false ∧ ZNOf t.ccr (s.readReg ra) := by
    rcases h with h | h
    · obtain ⟨hkept, hv, hzn, -⟩ := hrol h
      exact ⟨hkept, hv, hzn⟩
    · obtain ⟨hkept, hv, hzn, -⟩ := hror h
      exact ⟨hkept, hv, hzn⟩
  refine ⟨hkept, hv, hzn, fun h => ?_, fun h => ?_⟩
  · obtain ⟨-, -, -, hc⟩ := hrol h
    exact hc
  · obtain ⟨-, -, -, hc⟩ := hror h
    exact hc

/-- Settles O48: ROR reads bit `j` where ROL put it. -/
theorem rorUndoesRol : Obligations.RorUndoesRol := by
  unfold Obligations.RorUndoesRol
  intro ra o o' s t u ho ho' hrol hamount hror
  obtain ⟨hleft, -⟩ := exec_rol_next ho hrol
  obtain ⟨hright, -⟩ := exec_ror_next ho' hror
  refine BitVec.eq_of_getLsbD_eq fun j hj => ?_
  rw [hright j hj, hamount, hleft j hj]

/-! Logic. -/

section Logic
variable {ra : Reg} {s : State}

/-- One instruction of the logic family: its result is committed with Z and N from it, C and V kept (rule R180). -/
theorem logic_done {out : StepOutcome} {res : Val} (h : out = commitAlu ra (logicResult s.ccr res) s) {bit : Nat → Bool}
    (hbits : ∀ j, j < 20 → res.getLsbD j = bit j) :
    ∃ t, out = .next t ∧ (∀ j, j < 20 → (t.readReg ra).getLsbD j = bit j) ∧ ZNOf t.ccr (t.readReg ra) ∧
      t.ccr.c = s.ccr.c ∧ t.ccr.v = s.ccr.v ∧ (t.slot (slotOf ra)).toNat < 2 ^ 20 ∧ CompletesBut [slotOf ra] s t := by
  obtain ⟨t, ht, hdone⟩ := exec_done h
  refine ⟨t, ht, ?_, ?_, ?_, ?_, hdone.masked, hdone.completes⟩
  · rw [hdone.value]
    exact hbits
  · rw [hdone.value, hdone.flags]
    exact znOf_mk res
  · rw [hdone.flags]
    rfl
  · rw [hdone.flags]
    rfl

/-- In a mode its opcode does not permit an instruction ends in an error that changes the status alone (rule R107). -/
theorem exec_illFormed_isError {i : Instr} (h : i.wellFormed = false) (s : State) :
    ∃ t, exec i s = .next t ∧ t.status.isError = true ∧ t = s.report t.status :=
  ⟨_, exec_illFormed h s, rfl, rfl⟩

end Logic

/-- Settles O49: AND, ORR and EOR bit by bit, NOT as EOR with all ones. -/
theorem logicWritesBitwiseResultsAndZN : Obligations.LogicWritesBitwiseResultsAndZN := by
  unfold Obligations.LogicWritesBitwiseResultsAndZN
  intro ra o m s
  refine ⟨?valueGroup, fun hm => ?not, fun hm => ?notIllFormed⟩
  case valueGroup =>
    simp only [List.forall_mem_cons]
    refine ⟨⟨fun ho => ?_, fun ho => ?_⟩, ⟨fun ho => ?_, fun ho => ?_⟩, ⟨fun ho => ?_, fun ho => ?_⟩, ?_⟩
    · exact logic_done (exec_and ra o s ho) fun j _ => BitVec.getLsbD_and
    · exact exec_illFormed_isError (i := .and ra o) ho s
    · exact logic_done (exec_orr ra o s ho) fun j _ => BitVec.getLsbD_or
    · exact exec_illFormed_isError (i := .orr ra o) ho s
    · exact logic_done (exec_eor ra o s ho) fun j _ => BitVec.getLsbD_xor
    · exact exec_illFormed_isError (i := .eor ra o) ho s
    · exact fun _ hp => absurd hp List.not_mem_nil
  case not =>
    subst hm
    refine logic_done (exec_not ra s) fun j hj => ?_
    have hones : (0xFFFFF#20).getLsbD j = true := BitVec.getLsbD_allOnes.trans (decide_eq_true hj)
    rw [BitVec.getLsbD_xor, hones, Bool.xor_true]
  case notIllFormed =>
    refine exec_illFormed_isError ?_ s
    cases m with
    | immediate => exact absurd rfl hm
    | register | direct | indirect => rfl

/-- Settles O50: EOR with the same mask twice. -/
theorem notTwiceRestoresTheRegister : Obligations.NotTwiceRestoresTheRegister := by
  unfold Obligations.NotTwiceRestoresTheRegister
  intro ra s t h
  have hfirst : t.readReg ra = s.readReg ra ^^^ 0xFFFFF#20 := (done_of_exec (exec_not ra s) h).value
  obtain ⟨u, hu, hdone⟩ := exec_done (exec_not ra t)
  have hsecond : u.readReg ra = t.readReg ra ^^^ 0xFFFFF#20 := hdone.value
  exact ⟨u, hu, by rw [hsecond, hfirst, BitVec.xor_assoc, BitVec.xor_self, BitVec.xor_zero]⟩

end Sys2Proof.Machine
